-- ==== Sys2Proof/Word.lean ====
section
/-! DEFINITION. The word types of KMagic CORE. -/

namespace Sys2Proof

/-- A byte (R7): 8 bits, bit 0 the least significant. Key codes are bytes (R10). -/
abbrev Byte := BitVec 8

/-- A key set (R10) in the representation R21 chooses: bit `k` is 1 exactly when `k` is a member. -/
abbrev KeySet := BitVec 256

end Sys2Proof
end

