-- ==== Sys2Proof/Machine/Flags.lean ====
section
/-! DEFINITION. The core has no flags, condition codes or predicates (R26, "Flags: none" in every rule). The one condition a
rule computes from an operand and a register is the button edge of R153, and it stands here. -/

namespace Sys2Proof.Machine

/-- What the button byte of a mouse frame asks for, given ABM (R153). -/
inductive ButtonEdge where
  /-- Non-zero and different from ABM: press. -/
  | press
  /-- Zero where ABM is not: release all. -/
  | release
  /-- The same mask as ABM: no button command. -/
  | none
  deriving DecidableEq, Repr

/-- The four rows of R153's table. A change from one non-zero mask to another is a press and no release (R154, U8). -/
def buttonEdge (m abm : Byte) : ButtonEdge :=
  if m ≠ 0x00#8 ∧ m ≠ abm then .press
  else if m = 0x00#8 ∧ abm ≠ 0x00#8 then .release
  else .none

end Sys2Proof.Machine
end

