-- ==== Sys2Proof/Machine/KeySet.lean ====
section
/-! DEFINITION. Key sets and their operations (R10), on the 256-bit vector of R21. -/

namespace Sys2Proof.Machine.KeySet

/-- `k ∈ a`. -/
def has (a : KeySet) (k : Byte) : Bool := a.getLsbD k.toNat

/-- `∅`. -/
def empty : KeySet := 0#256

/-- The set with the one member `k`. -/
def single (k : Byte) : KeySet := 1#256 <<< k.toNat

/-- `a ∪ b`. -/
def union (a b : KeySet) : KeySet := a ||| b

/-- `a ∩ b`. -/
def inter (a b : KeySet) : KeySet := a &&& b

/-- `a \ b`. -/
def diff (a b : KeySet) : KeySet := a &&& ~~~b

/-- The set of the members of a list; duplicates collapse (R10). -/
def ofList : List Byte → KeySet
  | [] => empty
  | k :: ks => union (single k) (ofList ks)

/-- `asc(a)`: the members in ascending order (R10). -/
def asc (a : KeySet) : List Byte := ((List.range 256).filter fun k => a.getLsbD k).map (BitVec.ofNat 8)

/-- The number of members. -/
def card (a : KeySet) : Nat := (asc a).length

end Sys2Proof.Machine.KeySet
end

