-- ==== Sys2Proof/Machine/Params.lean ====
section
/-! DEFINITION. The named constants of R5, one line each, so that an audit of the literals against the repository
(R6, D19, log 7) changes one line. They stand under Machine/ and not in Config.lean because a repair may mend a body here. -/

namespace Sys2Proof.Config

/-- R5: tag byte of a keyboard frame. -/
abbrev KBD_TAG : Byte := 0x10#8

/-- R5: exact length of a keyboard frame, terminator included. -/
abbrev KBD_LEN : Nat := 9

/-- R5: tag byte of a mouse frame. -/
abbrev MOUSE_TAG : Byte := 0x20#8

/-- R5: exact length of a mouse frame, terminator included. -/
abbrev MOUSE_LEN : Nat := 6

/-- R5: keycode slots in a keyboard frame. -/
abbrev N_SLOTS : Nat := 6

/-- R5: modifier flag bits, and entries of the Modifier Translation Table. -/
abbrev N_MODBITS : Nat := 8

/-- R5: HID key code of modifier bit 0. -/
abbrev MOD_BASE : Byte := 0xE0#8

/-- R5: the key code that means an empty slot; it never represents a real key. -/
abbrev EMPTY_SLOT : Byte := 0x00#8

/-- R5: the largest length of a chunk. -/
abbrev RX_MAX : Nat := 32

/-- R5: the newline byte. PRESUMED (G1, log 6; unsafe): the source writes only `\n`; the value 0x0A is general knowledge. -/
abbrev TERM : Byte := 0x0A#8

/-- R5: the serial line rate in baud; timing only, no rule depends on it (R214). -/
abbrev BAUD : Nat := 115200

end Sys2Proof.Config
end

