-- ==== Sys2Proof/Config.lean ====
section
/-! DEFINITION. What is fixed for the machine: the constants of R5 (Machine/Params.lean, imported here) and the one free
value. -/

namespace Sys2Proof.Config

/-- A FREE VALUE (U9, D20, R172; log 13): the buttons pressed after `MousePress m` when `held` were pressed before, in an
environment whose reading of the command is neither of the two R172 names. -/
opaque mousePressOther (held m : Byte) : Byte

end Sys2Proof.Config
end

