-- ==== Sys2Proof/Syntax.lean ====
section
/-! DEFINITION. The instructions of KMagic CORE (the 14 rows of spec/opcode_table.json), the chunk classes of R74, and the
forms in which an input reaches the core. -/

namespace Sys2Proof

/-- One constructor per row of the opcode table. The spec's "instructions" are its frame kinds, its drop classes, its input
events and its textual pseudo-forms (INDEX, R81). -/
inductive Instr where
  /-- KBD (R130): one keyboard frame, format K9. -/
  | kbd (mod k0 k1 k2 k3 k4 k5 : Byte)
  /-- MOUSE (R150): one mouse frame, format M6; `buttons` is carried as its bit pattern (R73). -/
  | mouse (buttons dx dy wheel : Byte)
  /-- DROP.LEN.K (R76): a chunk with the keyboard tag and another length than 9; `rest` is what follows the tag. -/
  | dropLenK (rest : List Byte)
  /-- DROP.LEN.M (R76): a chunk with the mouse tag and another length than 6. -/
  | dropLenM (rest : List Byte)
  /-- DROP.TAG (R75): a chunk with an unknown tag. -/
  | dropTag (tag : Byte) (rest : List Byte)
  /-- DROP.EMPTY (R103): the empty chunk, at the chunk-level entry point only. -/
  | dropEmpty
  /-- RXBYTE (R100): one byte from the receive port. -/
  | rxbyte (b : Byte)
  /-- TIMEOUT (R102): the transport's read timed out. -/
  | timeout
  /-- RESET (R200). -/
  | reset
  /-- KBD.IDLE (R81): `KBD 0, 0, 0, 0, 0, 0, 0`. -/
  | kbdIdle
  /-- KBD.KEYS (R81): `KBD mod, a, ...`, 1 to 6 codes, the slots not given being 0. -/
  | kbdKeys (mod : Byte) (codes : List Byte)
  /-- MOUSE.MOVE (R81): `MOUSE 0, dx, dy, 0`. -/
  | mouseMove (dx dy : Byte)
  /-- MOUSE.BTN (R81): `MOUSE m, 0, 0, 0`. -/
  | mouseBtn (m : Byte)
  /-- NL (R81): `RAW 0A`, the empty line. -/
  | nl
  deriving DecidableEq, Repr

/-- What the classifier makes of a closed chunk (R74, R103). The first two shapes are the decoded frame of R82, produced by the
decode step and consumed by reconciliation; the other four are its "nothing", a drop, with the bytes dropped. -/
inductive Classified where
  | kbd (mod k0 k1 k2 k3 k4 k5 : Byte)
  | mouse (buttons dx dy wheel : Byte)
  | dropLenK (rest : List Byte)
  | dropLenM (rest : List Byte)
  | dropTag (tag : Byte) (rest : List Byte)
  | dropEmpty
  deriving DecidableEq, Repr

/-- What reaches the core from outside: the events of R12, and the two cases of the chunk-level entry point (R105). -/
inductive Input where
  /-- The event RXBYTE(b). -/
  | rxbyte (b : Byte)
  /-- The event TIMEOUT. -/
  | timeout
  /-- The event RESET, in its place in the event stream (log 26). -/
  | reset
  /-- Chunk level (R105): `Some f`. -/
  | frame (f : List Byte)
  /-- Chunk level (R105): `None`, "no frame this cycle". -/
  | noFrame
  deriving DecidableEq, Repr

/-- The labels of R181 for the causes of a drop. They are for traces and tests only and are no state (R104, R27; log 20). -/
inductive DropCause where
  | empty
  | tag
  | len
  | timeout
  deriving DecidableEq, Repr

end Sys2Proof
end

