-- ==== Sys2Proof/WellFormed.lean ====
section
/-! DEFINITION. Which instructions exist: the limits the opcode table and R81 put on operands. -/

namespace Sys2Proof

/-- `i` is an instruction of the table. A dropped chunk has at most 32 bytes (R103) and the tag and length that make it one of
its class (R75, R76); KBD.KEYS has 1 to 6 codes (R81). Every other operand may be any byte (R77). -/
def Instr.wf : Instr → Bool
  | .dropLenK rest => decide (rest.length + 1 ≠ Config.KBD_LEN) && decide (rest.length + 1 ≤ Config.RX_MAX)
  | .dropLenM rest => decide (rest.length + 1 ≠ Config.MOUSE_LEN) && decide (rest.length + 1 ≤ Config.RX_MAX)
  | .dropTag tag rest =>
    decide (tag ≠ Config.KBD_TAG) && decide (tag ≠ Config.MOUSE_TAG) && decide (rest.length + 1 ≤ Config.RX_MAX)
  | .kbdKeys _ codes => decide (1 ≤ codes.length) && decide (codes.length ≤ Config.N_SLOTS)
  | .kbd _ _ _ _ _ _ _ | .mouse _ _ _ _ | .dropEmpty | .rxbyte _ | .timeout | .reset | .kbdIdle
  | .mouseMove _ _ | .mouseBtn _ | .nl => true

end Sys2Proof
end

