-- ==== Sys2Proof/Decode.lean ====
section
/-! DEFINITION. Classification of a chunk (R74, R103), decoding of what reaches the core, and the encoder. -/

namespace Sys2Proof

/-- Byte `i` of a chunk (R8). It is read only below the chunk's length; the 0 past the end is never used. -/
def byteAt (f : List Byte) (i : Nat) : Byte := f.getD i 0

/-- CLASSIFY (R103), on tag and length only; the last byte is not inspected (R79, D4). Fields are whole bytes at the fixed
indices of R71 to R73, read only after both tests have passed. -/
def classify (f : List Byte) : Classified :=
  if f.length = 0 then .dropEmpty
  else if byteAt f 0 = Config.KBD_TAG then
    if f.length = Config.KBD_LEN then
      .kbd (byteAt f 1) (byteAt f 2) (byteAt f 3) (byteAt f 4) (byteAt f 5) (byteAt f 6) (byteAt f 7)
    else .dropLenK (f.drop 1)
  else if byteAt f 0 = Config.MOUSE_TAG then
    if f.length = Config.MOUSE_LEN then .mouse (byteAt f 1) (byteAt f 2) (byteAt f 3) (byteAt f 4)
    else .dropLenM (f.drop 1)
  else .dropTag (byteAt f 0) (f.drop 1)

/-- The table row a classified chunk is. -/
def Classified.toInstr : Classified → Instr
  | .kbd mod k0 k1 k2 k3 k4 k5 => .kbd mod k0 k1 k2 k3 k4 k5
  | .mouse buttons dx dy wheel => .mouse buttons dx dy wheel
  | .dropLenK rest => .dropLenK rest
  | .dropLenM rest => .dropLenM rest
  | .dropTag tag rest => .dropTag tag rest
  | .dropEmpty => .dropEmpty

/-- The cause of a classified chunk's drop, in the priority of R182; none for a frame. -/
def Classified.cause : Classified → Option DropCause
  | .kbd _ _ _ _ _ _ _ => none
  | .mouse _ _ _ _ => none
  | .dropLenK _ => some .len
  | .dropLenM _ => some .len
  | .dropTag _ _ => some .tag
  | .dropEmpty => some .empty

/-- The numbers of R181. -/
def DropCause.number : DropCause → Nat
  | .empty => 1
  | .tag => 2
  | .len => 3
  | .timeout => 4

/-- Why an input is no input of the core. -/
inductive DecodeError where
  /-- A chunk of more than `RX_MAX` bytes at the chunk-level entry point, where R105 admits lengths 0 to 32 (log 18). -/
  | chunkTooLong
  deriving DecidableEq, Repr

/-- The result of decoding an input. -/
inductive Decoded where
  /-- The instruction to run. -/
  | run (i : Instr)
  /-- `None` at the chunk level: no frame this cycle, nothing to run (R105). -/
  | nothing
  /-- Not an input of the core. -/
  | reject (e : DecodeError)
  deriving DecidableEq, Repr

/-- Decoding of a whole chunk at the chunk-level entry point (R105): any byte sequence of length 0 to 32. -/
def decodeChunk (f : List Byte) : Decoded :=
  if f.length ≤ Config.RX_MAX then .run (classify f).toInstr else .reject .chunkTooLong

/-- Decoding of an input, total. The events have no encoding (R100, R102, R200) and decode to themselves. -/
def decode : Input → Decoded
  | .rxbyte b => .run (.rxbyte b)
  | .timeout => .run .timeout
  | .reset => .run .reset
  | .frame f => decodeChunk f
  | .noFrame => .nothing

/-- The slots of KBD.KEYS: the codes given, then 0 (R81). -/
def padSlots (codes : List Byte) : List Byte :=
  (codes ++ List.replicate Config.N_SLOTS Config.EMPTY_SLOT).take Config.N_SLOTS

/-- Slot `j` of KBD.KEYS. -/
def slotOf (codes : List Byte) (j : Nat) : Byte := byteAt (padSlots codes) j

/-- The expansion of the pseudo-forms (R81); every other instruction is its own. -/
def Instr.expand : Instr → Instr
  | .kbdIdle => .kbd 0 0 0 0 0 0 0
  | .kbdKeys mod codes =>
    .kbd mod (slotOf codes 0) (slotOf codes 1) (slotOf codes 2) (slotOf codes 3) (slotOf codes 4) (slotOf codes 5)
  | .mouseMove dx dy => .mouse 0 dx dy 0
  | .mouseBtn m => .mouse m 0 0 0
  | .nl => .dropTag Config.TERM []
  | i => i

/-- The bytes of an instruction (R71, R72, R81, the table's "encoding" column), first byte first; none for an event. -/
def frameBytes : Instr → Option (List Byte)
  | .kbd mod k0 k1 k2 k3 k4 k5 => some [Config.KBD_TAG, mod, k0, k1, k2, k3, k4, k5, Config.TERM]
  | .mouse buttons dx dy wheel => some [Config.MOUSE_TAG, buttons, dx, dy, wheel, Config.TERM]
  | .dropLenK rest => some (Config.KBD_TAG :: rest)
  | .dropLenM rest => some (Config.MOUSE_TAG :: rest)
  | .dropTag tag rest => some (tag :: rest)
  | .dropEmpty => some []
  | .rxbyte _ => none
  | .timeout => none
  | .reset => none
  | .kbdIdle => some [Config.KBD_TAG, 0, 0, 0, 0, 0, 0, 0, Config.TERM]
  | .kbdKeys mod codes => some (Config.KBD_TAG :: mod :: (padSlots codes ++ [Config.TERM]))
  | .mouseMove dx dy => some [Config.MOUSE_TAG, 0, dx, dy, 0, Config.TERM]
  | .mouseBtn m => some [Config.MOUSE_TAG, m, 0, 0, 0, Config.TERM]
  | .nl => some [Config.TERM]

/-- The encoder: the input that is the instruction, a chunk for an encoded form and the event itself for an event. -/
def encode (i : Instr) : Input :=
  match i with
  | .rxbyte b => .rxbyte b
  | .timeout => .timeout
  | .reset => .reset
  | i => .frame ((frameBytes i).getD [])

/-- `n` bytes of a number, the least significant first: the table's bit 0 is bit 0 of byte 0. -/
def wordBytes : Nat → Nat → List Byte
  | 0, _ => []
  | n + 1, w => BitVec.ofNat 8 w :: wordBytes n (w / 256)

/-- A frame of which only the tag is given, its other bytes 0 up to the length the tag requires (log 17). Any other chunk is as it
is given. -/
def padFrame (f : List Byte) : List Byte :=
  if f = [Config.KBD_TAG] then Config.KBD_TAG :: List.replicate (Config.KBD_LEN - 1) 0
  else if f = [Config.MOUSE_TAG] then Config.MOUSE_TAG :: List.replicate (Config.MOUSE_LEN - 1) 0
  else f

/-- The chunk that a row's `nbits` bits `w` stand for (log 17). -/
def tableChunk (nbits w : Nat) : List Byte := padFrame (wordBytes ((nbits + 7) / 8) w)

/-- The instruction the decoder reads from an instruction whose bits are `w`, numbered as the opcode table numbers them. -/
def decodeTableWord (nbits w : Nat) : Option Instr :=
  match decode (.frame (tableChunk nbits w)) with
  | .run i => some i
  | .nothing => none
  | .reject _ => none

end Sys2Proof
end

