-- ==== Sys2Proof/Machine/State.lean ====
section
/-! DEFINITION. The state of KMagic CORE (R20), of its two ports and of the environment its rules speak of, as plain data; the
reasons a step can stop; the state after reset. -/

namespace Sys2Proof.Machine

/-- The commands of the HID command port (R47). There is no other. -/
inductive Command where
  /-- Keyboard `press(keycodes...)`, one batched call. -/
  | kbdPress (s : KeySet)
  /-- Keyboard `release(keycode)`. -/
  | kbdRelease (k : Byte)
  /-- Keyboard `release_all()`. -/
  | kbdReleaseAll
  /-- Mouse `move(dx, dy, wheel)`: three signed integers, each from -128 to 127. -/
  | mouseMove (x y w : Int)
  /-- Mouse `press(buttonmask)`: the mask's bit pattern; the source passes its signed reading `sext8 m` (R151). -/
  | mousePress (m : Byte)
  /-- Mouse `release_all()`. -/
  | mouseReleaseAll
  deriving DecidableEq, Repr

/-- The environment's parameter `mouse_press_effect` (R172, D20, U9; log 13). -/
inductive MousePressReading where
  /-- `HB <- HB OR m`, the default. -/
  | orInto
  /-- `HB <- m`, the other natural reading. -/
  | replace
  /-- Any other reading: `Config.mousePressOther`, of which nothing is known. -/
  | other
  deriving DecidableEq, Repr

/-- The HID shadow (R170), held by the environment; no rule of the core reads it. -/
structure HidShadow where
  /-- HK: the key codes pressed at the HID layer. -/
  keys : KeySet
  /-- HB: the mouse buttons pressed at the HID layer. -/
  buttons : Byte
  /-- What `MousePress` does to HB. -/
  reading : MousePressReading
  deriving DecidableEq, Repr

/-- Levels of the inputs that are not events of the receive port. -/
structure Pins where
  /-- The reset input (R200). -/
  reset : Bool
  /-- `cmd_ready`: the HID capability lets the presented command complete (R48, R49). -/
  cmdReady : Bool
  deriving DecidableEq, Repr

/-- RXBUF (R23): the valid bytes, index 0 first. An entry at or above RXLEN is not there (U2), so equal contents are equal
lists (log 15). -/
abbrev Memory := List Byte

/-- All the state. `aks`, `abm` and `rxbuf` are the core's own between events (R20); `cmdq` and `port` are non-empty only inside
the apply part of a step. -/
structure State where
  /-- AKS (R21). Bit 0 is hardwired 0: read it with `getAks`, write it with `setAks` (Ops). -/
  aks : KeySet
  /-- ABM (R22). -/
  abm : Byte
  /-- RXBUF[0 .. RXLEN-1] (R23, R24). -/
  rxbuf : Memory
  /-- The commands the apply part has still to present, oldest first (R49, R50; log 3). -/
  cmdq : List Command
  /-- The command presented with `cmd_valid` that has not completed (R48, R49). Every command stands here in at least one state. -/
  port : Option Command
  /-- The output sequence of the HID command port: all commands emitted, oldest first (R11). -/
  hidOut : List Command
  /-- The HID shadow (R170). -/
  hid : HidShadow
  /-- The inputs the core has not accepted yet, oldest first; held by the transport (R41, R53; log 1). -/
  inbox : List Input
  /-- The input levels in force (log 5). -/
  pins : Pins
  /-- The levels of the coming steps, one entry a step; the last one holds (log 5). -/
  pinTrace : List Pins
  deriving DecidableEq, Repr

/-- There is no fault: "the step function of `00_scope.md` rule R12 is total", "A model should have no fault outcome for the core"
(R180). Safe: nothing can be proved from a fault that the hardware lacks (log 19). -/
inductive Fault where
  deriving DecidableEq, Repr

/-- Why a step is refused. -/
inductive Refusal where
  /-- Raised by `exec` for an instruction without a meaning. No arm raises it now. Safe. -/
  | notModelled (mnemonic : String)
  /-- Raised by `step` for an input the decoder rejects: a chunk of more than 32 bytes at the chunk-level entry point, which R105
  does not admit. Safe: nothing is claimed of such a chunk (log 18). -/
  | undecodable (e : DecodeError)
  deriving DecidableEq, Repr

/-- The state right after reset: AKS empty, ABM 0, RXLEN 0 (R31), nothing being emitted, the environment as at boot (R202(a)),
and the model's own fields as log 9 says. -/
def State.reset : State where
  aks := 0#256
  abm := 0x00#8
  rxbuf := []
  cmdq := []
  port := none
  hidOut := []
  hid := { keys := 0#256, buttons := 0x00#8, reading := .orInto }
  inbox := []
  pins := { reset := false, cmdReady := true }
  pinTrace := []

end Sys2Proof.Machine
end

