-- ==== Sys2Proof/Machine/Hid.lean ====
section
/-! DEFINITION. The environment model of the HID capability (43_hid_shadow.md). -/

namespace Sys2Proof.Machine

/-- The buttons pressed after `MousePress m` (R172), by the environment's reading (log 13). -/
def mousePressEffect (r : MousePressReading) (held m : Byte) : Byte :=
  match r with
  | .orInto => held ||| m
  | .replace => m
  | .other => Config.mousePressOther held m

/-- The effect of one command on the shadow (R171, R172). -/
def HidShadow.act (h : HidShadow) (c : Command) : HidShadow :=
  match c with
  | .kbdPress s => { h with keys := KeySet.union h.keys s }
  | .kbdRelease k => { h with keys := KeySet.diff h.keys (KeySet.single k) }
  | .kbdReleaseAll => { h with keys := KeySet.empty }
  | .mouseMove _ _ _ => h
  | .mousePress m => { h with buttons := mousePressEffect h.reading h.buttons m }
  | .mouseReleaseAll => { h with buttons := 0x00#8 }

/-- The effect of commands in order. -/
def HidShadow.actAll (h : HidShadow) (cs : List Command) : HidShadow := cs.foldl HidShadow.act h

end Sys2Proof.Machine
end

