-- ==== Sys2Proof/Machine/Operands.lean ====
section
/-! DEFINITION. Operand readings (R9, R73), the Modifier Translation Table (R25) and the sets a keyboard frame gives (R131 to
R134). -/

namespace Sys2Proof.Machine

/-- `sext8(b)`: the integer that the two's-complement pattern `b` denotes (R9). -/
def sext8 (b : Byte) : Int := if b.toNat ≤ 127 then (b.toNat : Int) else (b.toNat : Int) - 256

/-- `zext8(b)`: the unsigned reading (R9). -/
def zext8 (b : Byte) : Nat := b.toNat

/-- `pat8(v)`: the byte whose signed reading is `v`, for `v` from -128 to 127 (R9). -/
def pat8 (v : Int) : Byte := BitVec.ofInt 8 v

/-- `MODTAB[i] = MOD_BASE + i` (R25, D10; log 7). Total over the 8 positions, so a lookup cannot miss (R186). -/
def modTab (i : Fin Config.N_MODBITS) : Byte := Config.MOD_BASE + BitVec.ofNat 8 i.val

/-- The translated codes of the bits of `mod` that are set: the loop of R131 over the 8 bit positions. -/
def modifierCodes (mod : Byte) : List Byte :=
  ((List.finRange Config.N_MODBITS).filter fun i => mod.getLsbD i.val).map modTab

/-- Step 1 (R131): `M`, the translated modifiers. -/
def modifierSet (mod : Byte) : KeySet := KeySet.ofList (modifierCodes mod)

/-- Step 2 (R132): `K`, the slots verbatim. -/
def slotSet (slots : List Byte) : KeySet := KeySet.ofList slots

/-- Step 3 (R133): `C = (M ∪ K) \ {0}`. -/
def candidate (mod : Byte) (slots : List Byte) : KeySet :=
  KeySet.diff (KeySet.union (modifierSet mod) (slotSet slots)) (KeySet.single Config.EMPTY_SLOT)

/-- Step 4 (R134): `R = AKS \ C`, the keys to release. -/
def releaseSet (aks c : KeySet) : KeySet := KeySet.diff aks c

end Sys2Proof.Machine
end

