-- ==== Sys2Proof/Machine/Ops.lean ====
section
/-! DEFINITION. The named operations over the registers, the receive buffer and the command port (R11), the drop (R104) and the
drive of the command port (R49). -/

namespace Sys2Proof.Machine

/-- Bit 0 hardwired 0 (R21, D6; log 14). -/
def hardwire (v : KeySet) : KeySet := KeySet.diff v (KeySet.single Config.EMPTY_SLOT)

/-- Read of AKS. -/
def State.getAks (s : State) : KeySet := hardwire s.aks

/-- `AKS <- v`. -/
def State.setAks (s : State) (v : KeySet) : State := { s with aks := hardwire v }

/-- Read of ABM. -/
def State.getAbm (s : State) : Byte := s.abm

/-- `ABM <- m`. -/
def State.setAbm (s : State) (m : Byte) : State := { s with abm := m }

/-- Read of RXLEN: the number of valid bytes in RXBUF (R24). -/
def State.rxlen (s : State) : Nat := s.rxbuf.length

/-- `RXBUF[i]`, the spec's MemRead (R11): a valid byte, or none at or above RXLEN, where there is no architectural value (R23). -/
def State.memRead (s : State) (i : Nat) : Option Byte := s.rxbuf[i]?

/-- `RXBUF[RXLEN] <- b` and `RXLEN <- RXLEN + 1`, the only store there is (R42, R100). -/
def State.memPush (s : State) (b : Byte) : State := { s with rxbuf := s.rxbuf ++ [b] }

/-- `RXLEN <- 0`: no byte is valid any more. -/
def State.memClear (s : State) : State := { s with rxbuf := [] }

/-- The form RXBUF has between events (R30 INV5, INV6): at most 31 bytes, none of them TERM. -/
def Memory.wf (m : Memory) : Bool := decide (m.length < Config.RX_MAX) && m.all (fun b => decide (b ≠ Config.TERM))

/-- `emit c` (R11): the command joins, at the end, those the apply part of this step has to put on the command port. The port
emits them one at a time in this order before any further input is accepted (`State.applyPart`, R49, R53; log 3). -/
def State.emit (s : State) (c : Command) : State := { s with cmdq := s.cmdq ++ [c] }

/-- `emit` of a list, in order. -/
def State.emitAll (s : State) (cs : List Command) : State := { s with cmdq := s.cmdq ++ cs }

/-- `drop(cause)` (R104, R183), the spec's one exception. After it "`AKS` and `ABM` as before the chunk, `RXLEN = 0`, no command
emitted"; nothing is saved and there is nothing to return to (R184). The cause is a label and leaves no trace in the state. -/
def State.drop (s : State) (_cause : DropCause) : State := s.memClear

/-- The core is inside the apply part of a step: a command waits on the port or has still to be emitted. -/
def State.applying (s : State) : Bool := s.port.isSome || !s.cmdq.isEmpty

/-- A command is presented (R48): it leaves the commands to come, is held on the port with `cmd_valid`, joins the output sequence,
and the HID layer acts on it (log 4). -/
def State.present (s : State) (c : Command) (rest : List Command) : State :=
  { s with
    cmdq := rest
    port := some c
    hidOut := s.hidOut ++ [c]
    hid := s.hid.act c }

/-- The presented command completes (R48): `cmd_valid` goes away. -/
def State.complete (s : State) : State := { s with port := none }

/-- The command port's part in a step inside the apply part (R48, R49). A command on the port completes in a step in which
`cmd_ready` is high, and waits otherwise, for ever if need be (R188). With the port free, the next command is presented; it is
on the port in at least one state, so `cmd_valid` and its lines are seen for every command (log 3). -/
def State.applyPart (s : State) : State :=
  match s.port with
  | some _ => if s.pins.cmdReady then s.complete else s
  | none =>
    match s.cmdq with
    | [] => s
    | c :: rest => s.present c rest

/-- The input levels of this step: the next entry of the trace, or the levels already in force. -/
def State.takePins (s : State) : State :=
  match s.pinTrace with
  | [] => s
  | p :: rest => { s with pins := p, pinTrace := rest }

/-- The state RESET leaves (R200, R31): AKS empty, ABM 0, RXLEN 0; what the step had still to emit is never emitted, what it has
emitted stays emitted (R201), and the environment is not reset (R202). -/
def State.toReset (s : State) : State :=
  { (((s.setAks KeySet.empty).setAbm 0x00#8).memClear) with cmdq := [], port := none }

end Sys2Proof.Machine
end

