-- ==== Sys2Proof/Machine/Drops.lean ====
section
/-! DEFINITION. The drop rows of the table (R75, R76, R103, R104) and the empty line NL. -/

namespace Sys2Proof.Machine

/-- DROP.LEN.K (R76, R103). -/
def execDropLenK (_rest : List Byte) (s : State) : Host.Outcome State Fault Refusal := .next (s.drop .len)

/-- DROP.LEN.M (R76, R103). -/
def execDropLenM (_rest : List Byte) (s : State) : Host.Outcome State Fault Refusal := .next (s.drop .len)

/-- DROP.TAG (R75, R103). -/
def execDropTag (_tag : Byte) (_rest : List Byte) (s : State) : Host.Outcome State Fault Refusal := .next (s.drop .tag)

/-- DROP.EMPTY (R103, D5). -/
def execDropEmpty (s : State) : Host.Outcome State Fault Refusal := .next (s.drop .empty)

/-- NL (R81, R75): the one-byte chunk `[0x0A]`, whose tag is unknown. As a chunk it is dropped; the byte 0x0A on the receive port,
which also closes and classifies a damaged chunk (R208), is `execRxbyte Config.TERM` (log 23). -/
def execNl (s : State) : Host.Outcome State Fault Refusal := .next (s.drop .tag)

end Sys2Proof.Machine
end

