-- ==== Sys2Proof/Machine/Keyboard.lean ====
section
/-! DEFINITION. Keyboard reconciliation (41_keyboard.md): KBD and its two pseudo-forms. -/

namespace Sys2Proof.Machine

/-- Step 4 (R134): the keys no longer wanted are released one by one, in ascending order (D7, log 10), and leave AKS. -/
def releaseStale (c : KeySet) (s : State) : State :=
  let r := releaseSet s.getAks c
  let s := s.emitAll ((KeySet.asc r).map Command.kbdRelease)
  s.setAks (KeySet.diff s.getAks r)

/-- Step 5 (R135): the candidates join AKS. -/
def addCandidates (c : KeySet) (s : State) : State := s.setAks (KeySet.union s.getAks c)

/-- Step 6 (R136): a full release when no key is wanted, besides the single releases of step 4 (D9, log 11). -/
def releaseAllIfIdle (c : KeySet) (s : State) : State :=
  if c = KeySet.empty then (s.emit .kbdReleaseAll).setAks KeySet.empty else s

/-- The seven steps of R130 on decoded fields; step 7 (R137) presses the whole candidate set, the empty one too (D8, log 11). -/
def reconcileKeyboard (mod : Byte) (slots : List Byte) (s : State) : State :=
  let c := candidate mod slots
  (releaseAllIfIdle c (addCandidates c (releaseStale c s))).emit (.kbdPress c)

/-- KBD (R130). -/
def execKbd (mod k0 k1 k2 k3 k4 k5 : Byte) (s : State) : Host.Outcome State Fault Refusal :=
  .next (reconcileKeyboard mod [k0, k1, k2, k3, k4, k5] s)

/-- KBD.IDLE (R81): `KBD 0, 0, 0, 0, 0, 0, 0`. -/
def execKbdIdle (s : State) : Host.Outcome State Fault Refusal :=
  .next (reconcileKeyboard 0x00#8 (List.replicate Config.N_SLOTS Config.EMPTY_SLOT) s)

/-- KBD.KEYS (R81): the codes given, the remaining slots 0. -/
def execKbdKeys (mod : Byte) (codes : List Byte) (s : State) : Host.Outcome State Fault Refusal :=
  .next (reconcileKeyboard mod (padSlots codes) s)

end Sys2Proof.Machine
end

