-- ==== Sys2Proof/Machine/Mouse.lean ====
section
/-! DEFINITION. Mouse reconciliation (42_mouse.md): MOUSE and its two pseudo-forms. -/

namespace Sys2Proof.Machine

/-- Step 3 (R153): the button command of a mask. -/
def reconcileButtons (m : Byte) (s : State) : State :=
  match buttonEdge m s.getAbm with
  | .press => (s.emit (.mousePress m)).setAbm m
  | .release => (s.emit .mouseReleaseAll).setAbm 0x00#8
  | .none => s

/-- The three steps of R150 on decoded fields: the signed deltas (R151), the move, always and first (R152, D12, log 12), then the
buttons. -/
def reconcileMouse (buttons dx dy wheel : Byte) (s : State) : State :=
  reconcileButtons buttons (s.emit (.mouseMove (sext8 dx) (sext8 dy) (sext8 wheel)))

/-- MOUSE (R150). -/
def execMouse (buttons dx dy wheel : Byte) (s : State) : Host.Outcome State Fault Refusal :=
  .next (reconcileMouse buttons dx dy wheel s)

/-- MOUSE.MOVE (R81): `MOUSE 0, dx, dy, 0`. -/
def execMouseMove (dx dy : Byte) (s : State) : Host.Outcome State Fault Refusal :=
  .next (reconcileMouse 0x00#8 dx dy 0x00#8 s)

/-- MOUSE.BTN (R81): `MOUSE m, 0, 0, 0`. -/
def execMouseBtn (m : Byte) (s : State) : Host.Outcome State Fault Refusal :=
  .next (reconcileMouse m 0x00#8 0x00#8 0x00#8 s)

end Sys2Proof.Machine
end

