-- ==== Sys2Proof/Machine/FrameReader.lean ====
section
/-! DEFINITION. The Frame Reader (40_frame_reader.md): RXBYTE with the close of a chunk, TIMEOUT, and RESET (R200). -/

namespace Sys2Proof.Machine

/-- Dispatch of a classified chunk to the rule of its kind (R103). -/
def dispatchChunk (c : Classified) (s : State) : Host.Outcome State Fault Refusal :=
  match c with
  | .kbd mod k0 k1 k2 k3 k4 k5 => execKbd mod k0 k1 k2 k3 k4 k5 s
  | .mouse buttons dx dy wheel => execMouse buttons dx dy wheel s
  | .dropLenK rest => execDropLenK rest s
  | .dropLenM rest => execDropLenM rest s
  | .dropTag tag rest => execDropTag tag rest s
  | .dropEmpty => execDropEmpty s

/-- Chunk close (R101): the buffer is emptied whatever becomes of the chunk, and the chunk is classified. -/
def closeChunk (s : State) : Host.Outcome State Fault Refusal := dispatchChunk (classify s.rxbuf) s.memClear

/-- RXBYTE (R100): store the byte; a TERM or the 32nd byte closes the chunk. -/
def execRxbyte (b : Byte) (s : State) : Host.Outcome State Fault Refusal :=
  let t := s.memPush b
  if b = Config.TERM ∨ t.rxlen = Config.RX_MAX then closeChunk t else .next t

/-- TIMEOUT (R102): the bytes received so far are discarded without classification. -/
def execTimeout (s : State) : Host.Outcome State Fault Refusal := .next s.memClear

/-- RESET (R200). It emits no command. -/
def execReset (s : State) : Host.Outcome State Fault Refusal := .next s.toReset

/-- The label of the drop that an instruction is, if it is one (R181): for traces and tests; no step reads it (R104, log 20). -/
def dropLabel (i : Instr) (s : State) : Option DropCause :=
  match i with
  | .dropLenK _ => some .len
  | .dropLenM _ => some .len
  | .dropTag _ _ => some .tag
  | .dropEmpty => some .empty
  | .nl => some .tag
  | .timeout => if 0 < s.rxlen then some .timeout else none
  | .rxbyte b =>
    if b = Config.TERM ∨ (s.memPush b).rxlen = Config.RX_MAX then (classify (s.memPush b).rxbuf).cause else none
  | .kbd _ _ _ _ _ _ _ => none
  | .mouse _ _ _ _ => none
  | .reset => none
  | .kbdIdle => none
  | .kbdKeys _ _ => none
  | .mouseMove _ _ => none
  | .mouseBtn _ => none

end Sys2Proof.Machine
end

