-- ==== Sys2Proof/Machine/Dispatch.lean ====
section
/-! DEFINITION. One arm per row of the opcode table. -/

namespace Sys2Proof.Machine

def exec (i : Instr) (s : State) : Host.Outcome State Fault Refusal :=
  match i with
  | .kbd mod k0 k1 k2 k3 k4 k5 => Sys2Proof.Machine.execKbd mod k0 k1 k2 k3 k4 k5 s
  | .mouse buttons dx dy wheel => Sys2Proof.Machine.execMouse buttons dx dy wheel s
  | .dropLenK rest => Sys2Proof.Machine.execDropLenK rest s
  | .dropLenM rest => Sys2Proof.Machine.execDropLenM rest s
  | .dropTag tag rest => Sys2Proof.Machine.execDropTag tag rest s
  | .dropEmpty => Sys2Proof.Machine.execDropEmpty s
  | .rxbyte b => Sys2Proof.Machine.execRxbyte b s
  | .timeout => Sys2Proof.Machine.execTimeout s
  | .reset => Sys2Proof.Machine.execReset s
  | .kbdIdle => Sys2Proof.Machine.execKbdIdle s
  | .kbdKeys mod codes => Sys2Proof.Machine.execKbdKeys mod codes s
  | .mouseMove dx dy => Sys2Proof.Machine.execMouseMove dx dy s
  | .mouseBtn m => Sys2Proof.Machine.execMouseBtn m s
  | .nl => Sys2Proof.Machine.execNl s

end Sys2Proof.Machine
end

