-- ==== Sys2Proof/Machine/Accept.lean ====
section
/-! DEFINITION. The core's reaction to one input it accepts (R12), and the input a table word is. -/

namespace Sys2Proof.Machine

/-- What taking an input does to the receive buffer before its instruction runs. A chunk given whole is a closed one: RXLEN is 0
before it is classified (R101) and after it, accepted or dropped (R106, R183; log 2). An event's own rule does the rest. -/
def State.beginInput (s : State) (x : Input) : State :=
  match x with
  | .frame _ => s.memClear
  | .rxbyte _ => s
  | .timeout => s
  | .reset => s
  | .noFrame => s

/-- Decode an input and run its instruction. `None` at the chunk level changes nothing (R105). -/
def acceptInput (x : Input) (s : State) : Host.Outcome State Fault Refusal :=
  match decode x with
  | .run i => exec i (s.beginInput x)
  | .nothing => .next s
  | .reject e => .refused (.undecodable e)

/-- Everything the apply part has still to emit is emitted and completes: what the command port does in the end when the HID
capability answers (`hid_live`, R188) and no RESET comes. -/
def State.flush (s : State) : State :=
  { s with cmdq := [], port := none, hidOut := s.hidOut ++ s.cmdq, hid := s.hid.actAll s.cmdq }

/-- The whole reaction to one event (R12, R53): every state write and every command. `step` reaches it in one step for the event and
at least two for each command, its presentation and its completion. -/
def react (x : Input) (s : State) : Host.Outcome State Fault Refusal :=
  match acceptInput x s with
  | .next t => .next t.flush
  | .fault r => .fault r
  | .refused r => .refused r

/-- The reactions to a sequence of events, in order (R50). -/
def reactAll : List Input → State → Host.Outcome State Fault Refusal
  | [], s => .next s
  | x :: xs, s =>
    match react x s with
    | .next t => reactAll xs t
    | .fault r => .fault r
    | .refused r => .refused r

/-- The core waits for an input or, if one is there, accepts the oldest (R50(a), R106). -/
def acceptNext (s : State) : Host.Outcome State Fault Refusal :=
  match s.inbox with
  | [] => .next s
  | x :: rest => acceptInput x { s with inbox := rest }

/-- One step with the input levels in force: RESET takes precedence over everything (R200); inside the apply part of a step no
input is accepted (R53); otherwise the core waits or accepts. -/
def stepWithPins (s : State) : Host.Outcome State Fault Refusal :=
  if s.pins.reset then exec .reset s
  else if s.applying then .next s.applyPart
  else acceptNext s

/-- `s` with the chunk first in the inbox and nothing before it: no command waiting, no reset pending. -/
def State.withChunkNext (s : State) (f : List Byte) : State :=
  { s with
    inbox := .frame f :: s.inbox
    cmdq := []
    port := none
    pins := { s.pins with reset := false }
    pinTrace := [] }

end Sys2Proof.Machine
end

