-- ==== Sys2Proof/Machine/Step.lean ====
section
/-! DEFINITION. One step of the machine. -/

namespace Sys2Proof.Machine

/-- One step: the input levels of the step are taken, then the core does one thing with them. -/
def step (s : State) : Host.Outcome State Fault Refusal := stepWithPins s.takePins

/-- `s` with the chunk that `nbits` bits `w` stand for as the next input, so that the next step runs it (log 17). -/
def State.withFetchWord (s : State) (nbits w : Nat) : State := s.withChunkNext (tableChunk nbits w)

end Sys2Proof.Machine
end

