-- ==== Sys2Proof/Machine/Ports.lean ====
section
/-! DEFINITION. The lines of the two ports (R41, R48): the receive port and reset input, and the encoding of commands. A line
that nothing drives has no value the spec states, and is `none` (log 24). -/

namespace Sys2Proof.Machine

/-- The lines of the command port (R48). -/
structure CmdLines where
  op : BitVec 3
  keys : Option (BitVec 256)
  a : Option Byte
  b : Option Byte
  c : Option Byte
  deriving DecidableEq, Repr

/-- The encoding of a command (R48). -/
def Command.lines : Command → CmdLines
  | .kbdPress s => { op := 0b001#3, keys := some s, a := none, b := none, c := none }
  | .kbdRelease k => { op := 0b010#3, keys := none, a := some k, b := none, c := none }
  | .kbdReleaseAll => { op := 0b011#3, keys := none, a := none, b := none, c := none }
  | .mouseMove x y w => { op := 0b101#3, keys := none, a := some (pat8 x), b := some (pat8 y), c := some (pat8 w) }
  | .mousePress m => { op := 0b110#3, keys := none, a := some m, b := none, c := none }
  | .mouseReleaseAll => { op := 0b111#3, keys := none, a := none, b := none, c := none }

/-- The command that lines carry; none for `cmd_op` 0b000 and 0b100, which are never driven, or for a payload line missing. -/
def CmdLines.command? (l : CmdLines) : Option Command :=
  if l.op = 0b001#3 then l.keys.map .kbdPress
  else if l.op = 0b010#3 then l.a.map .kbdRelease
  else if l.op = 0b011#3 then some .kbdReleaseAll
  else if l.op = 0b101#3 then
    match l.a, l.b, l.c with
    | some a, some b, some c => some (.mouseMove (sext8 a) (sext8 b) (sext8 c))
    | none, _, _ => none
    | some _, none, _ => none
    | some _, some _, none => none
  else if l.op = 0b110#3 then l.a.map .mousePress
  else if l.op = 0b111#3 then some .mouseReleaseAll
  else none

/-- `cmd_valid`: a command is presented and has not completed. -/
def State.cmdValid (s : State) : Bool := s.port.isSome

/-- The lines the command port drives. -/
def State.cmdLines (s : State) : Option CmdLines := s.port.map Command.lines

/-- `rx_ready`: the core takes an input only when it is not inside the apply part of a step (R41) and not in reset. -/
def State.rxReady (s : State) : Bool := !s.pins.reset && !s.applying

/-- The lines of the receive port and the reset input (R41, R200). -/
structure RxLines where
  reset : Bool
  valid : Bool
  data : Option Byte
  timeout : Bool
  deriving DecidableEq, Repr

/-- The lines that carry an event. The two chunk-level inputs have none: their transport is abstract (R105). -/
def inputLines : Input → Option RxLines
  | .rxbyte b => some { reset := false, valid := true, data := some b, timeout := false }
  | .timeout => some { reset := false, valid := false, data := none, timeout := true }
  | .reset => some { reset := true, valid := false, data := none, timeout := false }
  | .frame _ => none
  | .noFrame => none

/-- The event that lines carry: RESET before anything else (R200), and never two events at once (R182). -/
def RxLines.event? (l : RxLines) : Option Input :=
  if l.reset then some .reset
  else if l.valid then (if l.timeout then none else l.data.map .rxbyte)
  else if l.timeout then some .timeout
  else none

end Sys2Proof.Machine
end

