-- ==== Sys2Proof/Safety.lean ====
section
/-! DEFINITION. The terms in which claims speak of runs: the invariants of R30, agreement with the HID layer (R29, R173),
the premises of R202 and R188, and what the framer makes of a byte stream (R101). -/

namespace Sys2Proof.Machine

/-- `n` steps of the machine. -/
def run (n : Nat) (s : State) : Host.Outcome State Fault Refusal := Host.Core.run Sys2Proof.core n s

/-- `k` is a key code of the modifier range 0xE0 to 0xE7 (R25). -/
def isModifierCode (k : Byte) : Bool := decide (Config.MOD_BASE.toNat ≤ k.toNat ∧ k.toNat < Config.MOD_BASE.toNat + Config.N_MODBITS)

/-- INV3 and INV4 (R30): at most 14 asserted keys, at most 6 of them outside the modifier range. -/
def KeyInv (s : State) : Prop :=
  KeySet.card s.getAks ≤ Config.N_MODBITS + Config.N_SLOTS ∧
    ((KeySet.asc s.getAks).filter fun k => !isModifierCode k).length ≤ Config.N_SLOTS

/-- INV5 and INV6 (R30): at most 31 bytes in RXBUF, none of them TERM. -/
def RxInv (s : State) : Prop := Memory.wf s.rxbuf = true

/-- INV7 (R30): ABM is 0 or a mask whose MousePress has been emitted or is about to be. -/
def AbmInv (s : State) : Prop := s.getAbm = 0x00#8 ∨ Command.mousePress s.getAbm ∈ s.hidOut ++ s.cmdq

/-- `v` is a signed 8-bit integer. -/
def isSigned8 (v : Int) : Prop := -128 ≤ v ∧ v ≤ 127

/-- The payload limits of R47. -/
def Command.legal : Command → Prop
  | .kbdPress s => KeySet.has s Config.EMPTY_SLOT = false ∧ KeySet.card s ≤ Config.N_MODBITS + Config.N_SLOTS
  | .kbdRelease k => k ≠ Config.EMPTY_SLOT
  | .kbdReleaseAll => True
  | .mouseMove x y w => isSigned8 x ∧ isSigned8 y ∧ isSigned8 w
  | .mousePress m => m ≠ 0x00#8
  | .mouseReleaseAll => True

/-- Every command emitted or about to be is within the limits of R47. -/
def CommandsLegal (s : State) : Prop := ∀ c ∈ s.hidOut ++ s.cmdq, c.legal

/-- A command of the keyboard device (R48: `cmd_op[2]` = 0). -/
def Command.isKeyboard : Command → Bool
  | .kbdPress _ => true
  | .kbdRelease _ => true
  | .kbdReleaseAll => true
  | .mouseMove _ _ _ => false
  | .mousePress _ => false
  | .mouseReleaseAll => false

/-- A button command of the mouse (R153). -/
def Command.isButton : Command → Bool
  | .mousePress _ => true
  | .mouseReleaseAll => true
  | .mouseMove _ _ _ => false
  | .kbdPress _ => false
  | .kbdRelease _ => false
  | .kbdReleaseAll => false

/-- Keyboard agreement (R29(b), R173): once the commands of the current step are out, HK is AKS. Between steps, with no command to
come, it says `HK = AKS`. -/
def KeysAgree (s : State) : Prop := (s.hid.actAll s.cmdq).keys = s.getAks

/-- `boot_clean` (R202(a)): nothing is pressed at the HID layer. -/
def bootClean (s : State) : Prop := s.hid.keys = KeySet.empty ∧ s.hid.buttons = 0x00#8

/-- The level the environment's trace ends with, and holds. -/
def State.lastPins (s : State) : Pins := s.pinTrace.getLast?.getD s.pins

/-- No RESET is asserted on the reset input, now or in the coming steps. -/
def noResetAhead (s : State) : Prop := s.pins.reset = false ∧ ∀ p ∈ s.pinTrace, p.reset = false

/-- `hid_live` (R188): `cmd_ready` is high in the end, so every command completes. -/
def hidLive (s : State) : Prop := s.lastPins.cmdReady = true

/-- An event of the receive port (R41): a byte or a TIMEOUT. -/
def isPortEvent : Input → Bool
  | .rxbyte _ => true
  | .timeout => true
  | .reset => false
  | .frame _ => false
  | .noFrame => false

/-- The bytes of a chunk as the transport delivers them (R81, RAW). -/
def overPort (f : List Byte) : List Input := f.map Input.rxbyte

/-- What the framer makes of port events, starting with the bytes `buf` received (R101, R102, R105): a chunk-level input for each
chunk it closes and "no frame" for each TIMEOUT. -/
def framed : List Byte → List Input → List Input
  | _, [] => []
  | buf, .rxbyte b :: xs =>
    if b = Config.TERM ∨ (buf ++ [b]).length = Config.RX_MAX then .frame (buf ++ [b]) :: framed [] xs
    else framed (buf ++ [b]) xs
  | _, .timeout :: xs => .noFrame :: framed [] xs
  | _, .reset :: xs => .reset :: framed [] xs
  | buf, .frame f :: xs => .frame f :: framed buf xs
  | buf, .noFrame :: xs => .noFrame :: framed buf xs

/-- A command that names neither the key code 0x0A nor a motion of exactly +10 (R204). -/
def Command.avoidsTerm : Command → Prop
  | .kbdPress s => KeySet.has s Config.TERM = false
  | .kbdRelease k => k ≠ Config.TERM
  | .kbdReleaseAll => True
  | .mouseMove x y w => x ≠ 10 ∧ y ≠ 10 ∧ w ≠ 10
  | .mousePress m => m ≠ Config.TERM
  | .mouseReleaseAll => True

/-- The key 0x0A has never been asserted or pressed, nor a motion of +10 sent (R204). -/
def TermNeverCarried (s : State) : Prop :=
  KeySet.has s.getAks Config.TERM = false ∧ ∀ c ∈ s.hidOut ++ s.cmdq, c.avoidsTerm

end Sys2Proof.Machine
end

