-- ==== Sys2Proof/Certificates/Slice0/Obligations.lean ====
section
/-! DEFINITION. The statements about KMagic CORE that the provers settle. Literals are the spec's, written out, so that a wrong
constant of the model makes a statement false. -/

open Sys2Proof Sys2Proof.Machine

/-! ### Encoding and classification -/

/-- R71, R72, R74 to R76: words written out from the spec's encodings decode to their rows. -/
def Obligations.SpecWordsDecode : Prop :=
  decodeTableWord 72 0x0A0000000000040310 = some (.kbd 0x03 0x04 0 0 0 0 0) ∧
    decodeTableWord 72 0x0A0706050403020110 = some (.kbd 1 2 3 4 5 6 7) ∧
    decodeTableWord 48 0x0A810BF60120 = some (.mouse 0x01 0xF6 0x0B 0x81) ∧
    decodeTableWord 40 0x0A00040010 = some (.dropLenK [0, 4, 0, 0x0A]) ∧
    decodeTableWord 24 0x0A0020 = some (.dropLenM [0, 0x0A]) ∧
    decodeTableWord 24 0x0AFFFF = some (.dropTag 0xFF [0xFF, 0x0A]) ∧
    decodeTableWord 0 0 = some .dropEmpty ∧
    decodeTableWord 8 0x0A = some (.dropTag 0x0A [])

/-- Decoding what the encoder writes gives every well-formed instruction back, a pseudo-form's as its expansion (R81, R82). -/
def Obligations.DecodeOfEncode : Prop :=
  ∀ i : Instr, i.wf = true → decode (encode i) = .run i.expand

/-- Every chunk of at most 32 bytes is a well-formed instruction, and encoding that gives the chunk back, but for the last byte of
a frame, which is not inspected and comes out as the terminator (R79, R105). -/
def Obligations.EncodeOfDecode : Prop :=
  ∀ f : List Byte, f.length ≤ 32 →
    ∃ i, decode (.frame f) = .run i ∧ i.wf = true ∧
      frameBytes i = some (if (classify f).cause = none then f.dropLast ++ [0x0A#8] else f)

/-- R74: the dispatch table, row by row, on the tag and the total length. -/
def Obligations.DispatchTable : Prop :=
  decode (.frame []) = .run .dropEmpty ∧
    ∀ (t : Byte) (rest : List Byte), rest.length + 1 ≤ 32 →
      (t = 0x10#8 → rest.length + 1 = 9 → ∃ mod k0 k1 k2 k3 k4 k5 last,
        rest = [mod, k0, k1, k2, k3, k4, k5, last] ∧ decode (.frame (t :: rest)) = .run (.kbd mod k0 k1 k2 k3 k4 k5)) ∧
      (t = 0x10#8 → rest.length + 1 ≠ 9 → decode (.frame (t :: rest)) = .run (.dropLenK rest)) ∧
      (t = 0x20#8 → rest.length + 1 = 6 → ∃ buttons dx dy wheel last,
        rest = [buttons, dx, dy, wheel, last] ∧ decode (.frame (t :: rest)) = .run (.mouse buttons dx dy wheel)) ∧
      (t = 0x20#8 → rest.length + 1 ≠ 6 → decode (.frame (t :: rest)) = .run (.dropLenM rest)) ∧
      (t ≠ 0x10#8 → t ≠ 0x20#8 → decode (.frame (t :: rest)) = .run (.dropTag t rest))

/-- R75, R76, R183: a chunk with an unknown tag, or with a length that is not its tag's, given whole, writes neither AKS nor ABM, emits
nothing and leaves RXLEN 0, in every state. That a state may have bytes in RXBUF when a whole chunk comes is the model's (log 2). -/
def Obligations.UnknownOrMisfitChunkIsDropped : Prop :=
  ∀ (t : Byte) (rest : List Byte) (s : State), rest.length + 1 ≤ 32 →
    ¬(t = 0x10#8 ∧ rest.length + 1 = 9) → ¬(t = 0x20#8 ∧ rest.length + 1 = 6) →
    acceptInput (.frame (t :: rest)) s = .next { s with rxbuf := [] }

/-- R105 (D23): the chunk-level entry point. A chunk of at most 32 bytes is the instruction it classifies as, whatever its last byte,
run with RXLEN 0 as after any chunk close (R101, R106; that it is so from a state with bytes in RXBUF is log 2); `None` changes
nothing (that it leaves RXBUF alone is log 2); a longer chunk is no input of the core and is refused by name (log 18). -/
def Obligations.ChunkLevelEntry : Prop :=
  (∀ s : State, acceptInput .noFrame s = .next s) ∧
    (∀ (f : List Byte) (s : State), f.length ≤ 32 →
      acceptInput (.frame f) s = exec (classify f).toInstr { s with rxbuf := [] }) ∧
    ∀ (f : List Byte) (s : State), 32 < f.length → acceptInput (.frame f) s = .refused (.undecodable .chunkTooLong)

/-- R48 (the spec's own encoding, D15): the lines of every command row by row of the table, an undriven line being `none` (log 24);
the lines of a command within R47's limits give it back; 0b000 and 0b100 are never driven; `cmd_op[2]` is the device. -/
def Obligations.CommandLinesRoundTrip : Prop :=
  (∀ c : Command, c.legal →
    c.lines.command? = some c ∧ c.lines.op ≠ 0b000#3 ∧ c.lines.op ≠ 0b100#3 ∧ c.lines.op.getLsbD 2 = !c.isKeyboard) ∧
  (∀ S : KeySet, (Command.kbdPress S).legal →
    ∃ v : BitVec 256, (Command.kbdPress S).lines = { op := 0b001#3, keys := some v, a := none, b := none, c := none } ∧
      v.getLsbD 0 = false ∧ ∀ k : Byte, v.getLsbD k.toNat = KeySet.has S k) ∧
  (∀ k : Byte, (Command.kbdRelease k).lines = { op := 0b010#3, keys := none, a := some k, b := none, c := none }) ∧
  Command.kbdReleaseAll.lines = { op := 0b011#3, keys := none, a := none, b := none, c := none } ∧
  (∀ x y w : Int, (Command.mouseMove x y w).legal →
    ∃ a b c : Byte, (Command.mouseMove x y w).lines = { op := 0b101#3, keys := none, a := some a, b := some b, c := some c } ∧
      a.toInt = x ∧ b.toInt = y ∧ c.toInt = w) ∧
  (∀ m : Byte, (Command.mousePress m).lines = { op := 0b110#3, keys := none, a := some m, b := none, c := none }) ∧
  Command.mouseReleaseAll.lines = { op := 0b111#3, keys := none, a := none, b := none, c := none }

/-- R41, R182, R200: the lines of an event give it back; with the reset line high they are RESET whatever else they are, and a
byte and a timeout at once are no event. -/
def Obligations.EventLinesRoundTrip : Prop :=
  (∀ x l, inputLines x = some l → l.event? = some x) ∧
    (∀ l : RxLines, l.reset = true → l.event? = some .reset) ∧
    (∀ l : RxLines, l.reset = false → l.valid = true → l.timeout = true → l.event? = none)

/-! ### The Frame Reader -/

/-- R100 (D1): a byte that is not TERM and not the 32nd is stored at index RXLEN, RXLEN goes up by one, every other byte of RXBUF
reads as before, and nothing else changes. -/
def Obligations.RxbyteStoresOneByte : Prop :=
  ∀ (b : Byte) (s : State), b ≠ 0x0A#8 → s.rxlen + 1 ≠ 32 →
    ∃ t, exec (.rxbyte b) s = .next t ∧ t = { s with rxbuf := t.rxbuf } ∧ t.rxlen = s.rxlen + 1 ∧
      t.memRead s.rxlen = some b ∧ ∀ i, i ≠ s.rxlen → t.memRead i = s.memRead i

/-- R101 (D1): TERM or the 32nd byte closes the chunk; the buffer is empty afterwards, and the chunk, that byte included, has the
effect of the row it is. -/
def Obligations.RxbyteClosesChunk : Prop :=
  ∀ (b : Byte) (s : State), (b = 0x0A#8 ∨ s.rxlen + 1 = 32) →
    ∃ t, exec (.rxbyte b) s = .next t ∧ t.rxbuf = [] ∧
      exec (classify (s.rxbuf ++ [b])).toInstr { s with rxbuf := [] } = .next t

/-- R102 (D2): TIMEOUT empties the buffer and does nothing else. -/
def Obligations.TimeoutDiscardsPartialChunk : Prop :=
  ∀ s : State, exec .timeout s = .next { s with rxbuf := [] }

/-- R104, R183: a drop leaves RXLEN 0, writes neither AKS nor ABM and emits no command; nothing else changes. That NL, as an
instruction, is such a drop in every state, also with bytes in RXBUF, is the model's reading: it is the chunk of the terminator
alone (R81, R75; log 23). -/
def Obligations.DropsOnlyEmptyTheBuffer : Prop :=
  ∀ (s : State) (tag : Byte) (rest : List Byte),
    exec (.dropLenK rest) s = .next { s with rxbuf := [] } ∧ exec (.dropLenM rest) s = .next { s with rxbuf := [] } ∧
      exec (.dropTag tag rest) s = .next { s with rxbuf := [] } ∧ exec .dropEmpty s = .next { s with rxbuf := [] } ∧
      exec .nl s = .next { s with rxbuf := [] }

/-- R181, R183 (labels D16, log 20): whatever instruction carries a drop label, RXLEN is 0 after it and nothing else changes: AKS, ABM,
the commands, the port and the HID layer are as before. That NL as an instruction is such a drop, and classifies no damaged chunk
as R208 has the byte on the port do, is log 23. -/
def Obligations.LabelledDropsEmitNothing : Prop :=
  ∀ (i : Instr) (s : State), dropLabel i s ≠ none → exec i s = .next { s with rxbuf := [] }

/-- R182 (D16): the label of a closed chunk, by the priority empty, tag, length. -/
def Obligations.DropLabelPriority : Prop :=
  ∀ f : List Byte,
    (f = [] → (classify f).cause = some .empty) ∧
      (∀ t rest, f = t :: rest →
        (t ≠ 0x10#8 → t ≠ 0x20#8 → (classify f).cause = some .tag) ∧
        (t = 0x10#8 → f.length ≠ 9 → (classify f).cause = some .len) ∧
        (t = 0x20#8 → f.length ≠ 6 → (classify f).cause = some .len) ∧
        ((t = 0x10#8 ∧ f.length = 9) ∨ (t = 0x20#8 ∧ f.length = 6) → (classify f).cause = none))

/-- R30 INV5 and INV6: between events RXBUF holds at most 31 bytes and no TERM. Every step keeps it, from every state. -/
def Obligations.StepKeepsReceiveBufferForm : Prop :=
  ∀ s t : State, RxInv s → step s = .next t → RxInv t

/-- R105 (derived there): feeding port events byte by byte leaves AKS, ABM and the emitted commands as feeding the chunks the
framer closes, and "no frame" for each TIMEOUT. -/
def Obligations.ByteLevelAgreesWithChunkLevel : Prop :=
  ∀ (xs : List Input) (s : State), RxInv s → (∀ x ∈ xs, isPortEvent x = true) →
    ∃ t u, reactAll xs s = .next t ∧ reactAll (framed s.rxbuf xs) s = .next u ∧
      t.getAks = u.getAks ∧ t.getAbm = u.getAbm ∧ t.hidOut ++ t.cmdq = u.hidOut ++ u.cmdq

/-- R79, R101: a line of at most 31 bytes without TERM, and its terminator, delivered byte by byte at a chunk boundary, has exactly
the reaction of the one chunk. -/
def Obligations.LineIsOneChunk : Prop :=
  ∀ (g : List Byte) (s : State), g.length ≤ 31 → (∀ b ∈ g, b ≠ 0x0A#8) → s.rxbuf = [] →
    reactAll (overPort (g ++ [0x0A#8])) s = react (.frame (g ++ [0x0A#8])) s

/-- R206 (derived there): after noise without TERM whose length is a multiple of 32, a line is handled as if the noise had never
been sent. -/
def Obligations.AlignedNoiseIsInvisible : Prop :=
  ∀ (n : Nat) (noise : List Byte) (xs : List Input) (s : State), noise.length = 32 * n → (∀ b ∈ noise, b ≠ 0x0A#8) →
    s.rxbuf = [] → s.applying = false → reactAll (overPort noise ++ xs) s = reactAll xs s

/-- What R101 and R103 make of a frame with a TERM in its payload: nothing of a mouse frame (R205, derived there), and nothing of
a keyboard frame, but for two shapes whose piece of six bytes is applied as a mouse frame. The first is the shape R205 names;
the second R205 denies (log 22). -/
def Obligations.SplitFrameOutcomes : Prop :=
  (∀ (buttons dx dy wheel : Byte) (s : State), s.rxbuf = [] → s.applying = false →
    0x0A#8 ∈ [buttons, dx, dy, wheel] →
    reactAll (overPort [0x20#8, buttons, dx, dy, wheel, 0x0A#8]) s = .next s) ∧
  ∀ (mod k0 k1 k2 k3 k4 k5 : Byte) (s : State), s.rxbuf = [] → s.applying = false →
    0x0A#8 ∈ [mod, k0, k1, k2, k3, k4, k5] →
    reactAll (overPort [0x10#8, mod, k0, k1, k2, k3, k4, k5, 0x0A#8]) s =
      (if k0 = 0x0A#8 ∧ k1 = 0x20#8 ∧ 0x0A#8 ∉ [k2, k3, k4, k5] then react (.frame [0x20#8, k2, k3, k4, k5, 0x0A#8]) s
       else if mod = 0x0A#8 ∧ k0 = 0x20#8 ∧ k5 = 0x0A#8 ∧ 0x0A#8 ∉ [k1, k2, k3, k4] then
         react (.frame [0x20#8, k1, k2, k3, k4, 0x0A#8]) s
       else .next s)

/-- R205 as it is written: of all keyboard frames split by an embedded TERM, only those with `k0 = 0x0A`, `k1 = 0x20` and no 0x0A
in `k2` to `k5` have any effect. It does not follow from R101 and R103 (log 22): expected to fail. -/
def Obligations.SplitKeyboardFrameOnlyOneShape : Prop :=
  ∀ (mod k0 k1 k2 k3 k4 k5 : Byte) (s : State), s.rxbuf = [] → s.applying = false →
    0x0A#8 ∈ [mod, k0, k1, k2, k3, k4, k5] →
    ¬(k0 = 0x0A#8 ∧ k1 = 0x20#8 ∧ 0x0A#8 ∉ [k2, k3, k4, k5]) →
    reactAll (overPort [0x10#8, mod, k0, k1, k2, k3, k4, k5, 0x0A#8]) s = .next s

/-- R207 (derived there): a TIMEOUT after the first `n` bytes of a frame loses it, and its remainder is dropped, but for a keyboard
frame with `n = 3` and `k1 = 0x20`: that remainder is applied as a mouse frame. -/
def Obligations.TimeoutInsideFrame : Prop :=
  (∀ (n : Nat) (buttons dx dy wheel : Byte) (s : State), 1 ≤ n → n ≤ 5 → s.rxbuf = [] → s.applying = false →
    0x0A#8 ∉ [buttons, dx, dy, wheel] →
    reactAll (overPort ([0x20#8, buttons, dx, dy, wheel, 0x0A#8].take n) ++
        .timeout :: overPort ([0x20#8, buttons, dx, dy, wheel, 0x0A#8].drop n)) s = .next s) ∧
  ∀ (n : Nat) (mod k0 k1 k2 k3 k4 k5 : Byte) (s : State), 1 ≤ n → n ≤ 8 → s.rxbuf = [] → s.applying = false →
    0x0A#8 ∉ [mod, k0, k1, k2, k3, k4, k5] →
    reactAll (overPort ([0x10#8, mod, k0, k1, k2, k3, k4, k5, 0x0A#8].take n) ++
        .timeout :: overPort ([0x10#8, mod, k0, k1, k2, k3, k4, k5, 0x0A#8].drop n)) s =
      (if n = 3 ∧ k1 = 0x20#8 then react (.frame [0x20#8, k2, k3, k4, k5, 0x0A#8]) s else .next s)

/-- R204 (derived there): with byte-level inputs only, the key 0x0A is never asserted, pressed or released, no motion of exactly
+10 is sent and no mask 0x0A pressed. Every step keeps it. -/
def Obligations.StepNeverCarriesTerm : Prop :=
  ∀ s t : State, RxInv s → TermNeverCarried s → (∀ f, Input.frame f ∉ s.inbox) → step s = .next t →
    TermNeverCarried t ∧ ∀ f, Input.frame f ∉ t.inbox

/-! ### The keyboard -/

/-- R131 with the table of R25 (rows by D10): bit `i` of `mod` contributes the key code 0xE0 + i, and nothing else does. -/
def Obligations.ModifierDecode : Prop :=
  ∀ mod k : Byte, KeySet.has (modifierSet mod) k = true ↔ ∃ i, i < 8 ∧ mod.getLsbD i = true ∧ k.toNat = 0xE0 + i

/-- R132: the slots are collected verbatim, duplicates collapse, and any permutation of the slots gives the same set. -/
def Obligations.SlotsCollapseToASet : Prop :=
  (∀ (slots : List Byte) (k : Byte), KeySet.has (slotSet slots) k = true ↔ k ∈ slots) ∧
    ∀ slots slots' : List Byte, slots.Perm slots' → slotSet slots = slotSet slots'

/-- R133 (modifier rows D10): the candidate set is the union of translated modifiers and slots without 0; it has at most 14
members, and is empty exactly when `mod` and all slots are 0. -/
def Obligations.CandidateSet : Prop :=
  ∀ mod k0 k1 k2 k3 k4 k5 : Byte,
    (∀ k : Byte, KeySet.has (candidate mod [k0, k1, k2, k3, k4, k5]) k = true ↔
      k ≠ 0x00#8 ∧ ((∃ i, i < 8 ∧ mod.getLsbD i = true ∧ k.toNat = 0xE0 + i) ∨ k ∈ [k0, k1, k2, k3, k4, k5])) ∧
    KeySet.card (candidate mod [k0, k1, k2, k3, k4, k5]) ≤ 14 ∧
    (candidate mod [k0, k1, k2, k3, k4, k5] = KeySet.empty ↔
      mod = 0x00#8 ∧ ∀ k ∈ [k0, k1, k2, k3, k4, k5], k = 0x00#8)

/-- R211 (derived there): a modifier bit and a slot with the modifier's key code are the same key. -/
def Obligations.ModifierBitIsModifierSlot : Prop :=
  ∀ (i : Fin 8) (mod k1 k2 k3 k4 k5 : Byte) (s : State),
    exec (.kbd (mod ||| 1#8 <<< i.val) 0x00#8 k1 k2 k3 k4 k5) s =
      exec (.kbd mod (0xE0#8 + BitVec.ofNat 8 i.val) k1 k2 k3 k4 k5) s

/-- R10: the set operations member by member, the collapse of duplicates, and `asc`, the members in strictly ascending order. -/
def Obligations.SetOperations : Prop :=
  (∀ (a b : KeySet) (k : Byte),
    KeySet.has (KeySet.union a b) k = (KeySet.has a k || KeySet.has b k) ∧
    KeySet.has (KeySet.inter a b) k = (KeySet.has a k && KeySet.has b k) ∧
    KeySet.has (KeySet.diff a b) k = (KeySet.has a k && !KeySet.has b k) ∧
    KeySet.has KeySet.empty k = false ∧
    (k ∈ KeySet.asc a ↔ KeySet.has a k = true)) ∧
  (∀ a b : KeySet, (∀ k, KeySet.has a k = KeySet.has b k) → a = b) ∧
  (∀ a : KeySet, (KeySet.asc a).Pairwise (fun j k => j.toNat < k.toNat)) ∧
  ∀ (l : List Byte) (k : Byte), KeySet.has (KeySet.ofList l) k = true ↔ k ∈ l

/-- R130, R138: a keyboard frame completes in every state. AKS becomes the candidate set C; one release for each key of AKS that is
not in C, a full release if C is empty, and one press of C join the commands, in that order; nothing else changes. The ascending
order of the releases (D7), the press of an empty set (D8) and the single releases before a full one (D9) are the spec's own
decisions (logs 10, 11). A frame's rule does not touch RXBUF, which the
chunk close has emptied (R101), and so in the next two. -/
def Obligations.KeyboardFrameResult : Prop :=
  ∀ (mod k0 k1 k2 k3 k4 k5 : Byte) (s : State),
    exec (.kbd mod k0 k1 k2 k3 k4 k5) s = .next
      { s with
        aks := candidate mod [k0, k1, k2, k3, k4, k5]
        cmdq := s.cmdq ++
          (KeySet.asc (KeySet.diff s.getAks (candidate mod [k0, k1, k2, k3, k4, k5]))).map Command.kbdRelease ++
          (if candidate mod [k0, k1, k2, k3, k4, k5] = KeySet.empty then [Command.kbdReleaseAll] else []) ++
          [Command.kbdPress (candidate mod [k0, k1, k2, k3, k4, k5])] }

/-- R81, R136: KBD.IDLE completes in every state: every asserted key is released singly and all at once, AKS is empty, the empty
set is pressed (D8, D9, log 11), nothing else changes; and it is what the frame of zeros does. -/
def Obligations.IdleFrameResult : Prop :=
  ∀ s : State,
    exec .kbdIdle s = .next
      { s with
        aks := KeySet.empty
        cmdq := s.cmdq ++ (KeySet.asc s.getAks).map Command.kbdRelease ++ [Command.kbdReleaseAll, Command.kbdPress KeySet.empty] } ∧
    exec .kbdIdle s = exec (.kbd 0x00#8 0x00#8 0x00#8 0x00#8 0x00#8 0x00#8 0x00#8) s

/-- R81: KBD.KEYS with 1 to 6 codes completes in every state and is the keyboard frame whose candidate set is its modifiers and its
codes, the slots not given adding nothing (release order D7, empty press D8, D9: logs 10, 11). -/
def Obligations.KeysFormResult : Prop :=
  ∀ (mod : Byte) (codes : List Byte) (s : State), 1 ≤ codes.length → codes.length ≤ 6 →
    exec (.kbdKeys mod codes) s = .next
      { s with
        aks := candidate mod codes
        cmdq := s.cmdq ++ (KeySet.asc (KeySet.diff s.getAks (candidate mod codes))).map Command.kbdRelease ++
          (if candidate mod codes = KeySet.empty then [Command.kbdReleaseAll] else []) ++
          [Command.kbdPress (candidate mod codes)] }

/-- R138 (derived there), R215: at most 16 commands for a keyboard frame, and at least one. -/
def Obligations.KeyboardCommandBound : Prop :=
  ∀ (mod k0 k1 k2 k3 k4 k5 : Byte) (s : State), KeyInv s →
    ∃ t, exec (.kbd mod k0 k1 k2 k3 k4 k5) s = .next t ∧
      s.cmdq.length + 1 ≤ t.cmdq.length ∧ t.cmdq.length ≤ s.cmdq.length + 16

/-- R30 INV3, INV4: at most 14 asserted keys, at most 6 outside the modifier range. Every step keeps it, from every state. -/
def Obligations.StepKeepsKeyBounds : Prop :=
  ∀ s t : State, KeyInv s → step s = .next t → KeyInv t

/-- R21 (bit 0 hardwired, D6, log 14): in every state, reachable or not, AKS reads without the key code 0, and a write of any set
reads back as that set without 0. -/
def Obligations.KeyZeroIsHardwired : Prop :=
  (∀ s : State, KeySet.has s.getAks 0x00#8 = false) ∧
    ∀ (s : State) (v : KeySet) (k : Byte),
      KeySet.has (s.setAks v).getAks k = (KeySet.has v k && decide (k ≠ 0x00#8))

/-! ### The mouse -/

/-- R9: `sext8` and its inverse. -/
def Obligations.SignedReading : Prop :=
  (∀ b : Byte, (b.toNat ≤ 127 → sext8 b = b.toNat) ∧ (128 ≤ b.toNat → sext8 b = (b.toNat : Int) - 256) ∧
      -128 ≤ sext8 b ∧ sext8 b ≤ 127 ∧ pat8 (sext8 b) = b ∧ zext8 b = b.toNat) ∧
    ∀ v : Int, -128 ≤ v → v ≤ 127 → sext8 (pat8 v) = v

/-- R150, R155: a mouse frame completes in every state. ABM becomes the button byte; a move with the signed deltas and then at most
one button command join the commands; nothing else changes. The order, move first, is the spec's own decision (D12, log 12).
The frame's rule does not touch RXBUF, which the chunk close has emptied (R101). -/
def Obligations.MouseFrameResult : Prop :=
  ∀ (buttons dx dy wheel : Byte) (s : State),
    exec (.mouse buttons dx dy wheel) s = .next
      { s with
        abm := buttons
        cmdq := s.cmdq ++ [Command.mouseMove dx.toInt dy.toInt wheel.toInt] ++
          (if buttons ≠ 0x00#8 ∧ buttons ≠ s.getAbm then [Command.mousePress buttons]
           else if buttons = 0x00#8 ∧ s.getAbm ≠ 0x00#8 then [Command.mouseReleaseAll] else []) }

/-- R153: the four rows of the button table, on the button commands a frame adds, in whatever order to its move. -/
def Obligations.ButtonEdges : Prop :=
  ∀ (m dx dy wheel : Byte) (s : State), ∃ t new,
    exec (.mouse m dx dy wheel) s = .next t ∧ t.cmdq = s.cmdq ++ new ∧
      (m ≠ 0x00#8 → s.getAbm ≠ m → new.filter Command.isButton = [.mousePress m] ∧ t.getAbm = m) ∧
      (m ≠ 0x00#8 → s.getAbm = m → new.filter Command.isButton = [] ∧ t.getAbm = m) ∧
      (m = 0x00#8 → s.getAbm ≠ 0x00#8 → new.filter Command.isButton = [.mouseReleaseAll] ∧ t.getAbm = 0x00#8) ∧
      (m = 0x00#8 → s.getAbm = 0x00#8 → new.filter Command.isButton = [] ∧ t.getAbm = 0x00#8)

/-- R154: a change from one non-zero mask to another presses the new mask and releases nothing. -/
def Obligations.PreservedButtonDefect : Prop :=
  ∀ (m dx dy wheel : Byte) (s : State), m ≠ 0x00#8 → s.getAbm ≠ 0x00#8 → m ≠ s.getAbm →
    ∃ t new, exec (.mouse m dx dy wheel) s = .next t ∧ t.cmdq = s.cmdq ++ new ∧ t.getAbm = m ∧
      new.filter Command.isButton = [.mousePress m]

/-- R81: MOUSE.MOVE and MOUSE.BTN complete in every state, as the mouse frames of their expansions (move first: D12, log 12). -/
def Obligations.MousePseudoForms : Prop :=
  ∀ (dx dy m : Byte) (s : State),
    exec (.mouseMove dx dy) s = .next
      { s with
        abm := 0x00#8
        cmdq := s.cmdq ++ [Command.mouseMove dx.toInt dy.toInt 0] ++
          (if s.getAbm ≠ 0x00#8 then [Command.mouseReleaseAll] else []) } ∧
    exec (.mouseBtn m) s = .next
      { s with
        abm := m
        cmdq := s.cmdq ++ [Command.mouseMove 0 0 0] ++
          (if m ≠ 0x00#8 ∧ m ≠ s.getAbm then [Command.mousePress m]
           else if m = 0x00#8 ∧ s.getAbm ≠ 0x00#8 then [Command.mouseReleaseAll] else []) }

/-- R30 INV7: ABM is 0 or a mask that a MousePress carried. Every step keeps it, from every state. -/
def Obligations.StepKeepsButtonHistory : Prop :=
  ∀ s t : State, AbmInv s → step s = .next t → AbmInv t

/-! ### Whole-machine rules -/

/-- R21 (D6): AKS is changed by keyboard frames and RESET only: by no mouse frame, no drop, no TIMEOUT, and by an RXBYTE only when
its byte is TERM and closes a keyboard frame. -/
def Obligations.OnlyKeyboardFramesChangeAks : Prop :=
  ∀ (i : Instr) (s t : State), exec i s = .next t → t.getAks ≠ s.getAks →
    i = .reset ∨ i = .kbdIdle ∨ (∃ mod codes, i = .kbdKeys mod codes) ∨
      (∃ mod k0 k1 k2 k3 k4 k5, i = .kbd mod k0 k1 k2 k3 k4 k5) ∨
      ∃ b mod k0 k1 k2 k3 k4 k5, i = .rxbyte b ∧ b = 0x0A#8 ∧ classify (s.rxbuf ++ [b]) = .kbd mod k0 k1 k2 k3 k4 k5

/-- R22 (D11): ABM is changed by mouse frames and RESET only, and by an RXBYTE only when its byte is TERM and closes a mouse
frame. -/
def Obligations.OnlyMouseFramesChangeAbm : Prop :=
  ∀ (i : Instr) (s t : State), exec i s = .next t → t.getAbm ≠ s.getAbm →
    i = .reset ∨ (∃ dx dy, i = .mouseMove dx dy) ∨ (∃ m, i = .mouseBtn m) ∨
      (∃ buttons dx dy wheel, i = .mouse buttons dx dy wheel) ∨
      ∃ b buttons dx dy wheel, i = .rxbyte b ∧ b = 0x0A#8 ∧ classify (s.rxbuf ++ [b]) = .mouse buttons dx dy wheel

/-- R180: every instruction has a next state, and so has every step on inputs the core has (R105: chunks of at most 32 bytes). -/
def Obligations.EveryStepHasANextState : Prop :=
  (∀ (i : Instr) (s : State), ∃ t, exec i s = .next t) ∧
    ∀ s : State, (∀ f, Input.frame f ∈ s.inbox → f.length ≤ 32) → ∃ t, step s = .next t

/-- R47 (derived there): no command outside the limits is ever emitted: no `KbdRelease(0)`, no `MousePress(0)`, no press with 0 or
with more than 14 keys, no delta outside -128 to 127. Every step keeps it, from every state. -/
def Obligations.StepKeepsCommandsLegal : Prop :=
  ∀ s t : State, CommandsLegal s → step s = .next t → CommandsLegal t

/-! ### The step, the command port and RESET -/

/-- R12, R41, R105: outside the apply part of a step and outside reset, the step takes the oldest input and is the instruction that
it decodes to, run with the input taken, and with RXLEN 0 when the input is a whole chunk (R101, R106; log 2); "no frame" only
takes the input; without an input the core waits. The input levels of the step are taken first (log 5). -/
def Obligations.StepRunsDecodedInstruction : Prop :=
  ∀ s : State, s.takePins.pins.reset = false → s.applying = false →
    (∀ x rest i, s.inbox = x :: rest → (∀ f, x ≠ .frame f) → decode x = .run i →
      step s = exec i { s.takePins with inbox := rest }) ∧
    (∀ f rest i, s.inbox = .frame f :: rest → decode (.frame f) = .run i →
      step s = exec i { s.takePins with inbox := rest, rxbuf := [] }) ∧
    (∀ x rest, s.inbox = x :: rest → decode x = .nothing → step s = .next { s.takePins with inbox := rest }) ∧
    (s.inbox = [] → step s = .next s.takePins)

/-- The environment's schedule of input levels (the model's own, log 5): a step takes the next entry off the schedule and has its
levels; when there is none the levels hold. -/
def Obligations.InputLevelsFollowTrace : Prop :=
  (∀ s t : State, step s = .next t → t.pins = s.takePins.pins ∧ t.pinTrace = s.pinTrace.tail) ∧
    (∀ s : State, s.pinTrace = [] → s.takePins = s) ∧
    ∀ (s : State) (p : Pins) (rest : List Pins), s.pinTrace = p :: rest → s.takePins = { s with pins := p, pinTrace := rest }

/-- R48, R49, R188 (D15): the port drives `cmd_valid` and the lines of the command on it, and nothing when it is free. Inside the
apply part of a step, with reset low: a command on the port stays, and nothing else happens, while `cmd_ready` is low, and
completes when it is high; with the port free the next command is presented, whatever `cmd_ready` is. No input is taken and no
register changes (R53). That a presentation and a completion are a step each is log 3, that a command joins the output and acts
on the HID layer when it is presented log 4. -/
def Obligations.CommandPortStep : Prop :=
  (∀ s : State, (∀ c, s.port = some c → s.cmdValid = true ∧ s.cmdLines = some c.lines) ∧
    (s.port = none → s.cmdValid = false ∧ s.cmdLines = none)) ∧
  ∀ s : State, s.takePins.pins.reset = false →
    (∀ c, s.port = some c → s.takePins.pins.cmdReady = false → step s = .next s.takePins) ∧
    (∀ c, s.port = some c → s.takePins.pins.cmdReady = true → step s = .next { s.takePins with port := none }) ∧
    (∀ c rest, s.port = none → s.cmdq = c :: rest →
      step s = .next
        { s.takePins with
          cmdq := rest
          port := some c
          hidOut := s.hidOut ++ [c]
          hid := s.hid.act c })

/-- R53 (D3), R41: a step that takes an input from the inbox takes the oldest one, and the core was ready: reset low and no command
waiting or to come. -/
def Obligations.InputsTakenOnlyWhenReady : Prop :=
  ∀ s t : State, step s = .next t → t.inbox ≠ s.inbox →
    s.takePins.rxReady = true ∧ ∃ x, s.inbox = x :: t.inbox

/-- R200, R201 (D13, D21): RESET, as an event or on the reset input at any time, leaves AKS empty, ABM 0 and RXLEN 0, emits no
command, abandons what was to be emitted, and leaves what was emitted. Three clauses are the model's choices: a command that is
presented leaves the port (log 9); it has been emitted, so it stays in `hidOut` and `hid` (log 4); the inputs that wait and the HID
layer survive (log 26). -/
def Obligations.ResetEffect : Prop :=
  (∀ s : State, exec .reset s = .next
    { s with aks := KeySet.empty, abm := 0x00#8, rxbuf := [], cmdq := [], port := none }) ∧
  ∀ s : State, s.takePins.pins.reset = true → step s = .next
    { s.takePins with aks := KeySet.empty, abm := 0x00#8, rxbuf := [], cmdq := [], port := none }

/-- R31 (D13), R170, R202(a): after reset AKS is empty, ABM is 0, RXLEN is 0, nothing is being emitted, and the HID layer has
nothing pressed. -/
def Obligations.StateAfterReset : Prop :=
  (∀ k, KeySet.has State.reset.getAks k = false) ∧ State.reset.getAbm = 0x00#8 ∧ State.reset.rxlen = 0 ∧
    State.reset.applying = false ∧ bootClean State.reset

/-- R30: every invariant stated here holds in the state after reset. -/
def Obligations.InvariantsHoldAtReset : Prop :=
  RxInv State.reset ∧ KeyInv State.reset ∧ AbmInv State.reset ∧ CommandsLegal State.reset ∧ KeysAgree State.reset ∧
    TermNeverCarried State.reset

/-- R50, R201: no step takes back or reorders what has been emitted; without RESET, what it emits is the next of what was to come.
That a step emits at most one command is the model's division of R12's step into several (log 3), and that a command presented
when RESET comes counts as emitted is log 4. -/
def Obligations.EmittedCommandsStay : Prop :=
  ∀ s t : State, step s = .next t →
    (∃ new, t.hidOut = s.hidOut ++ new ∧ new.length ≤ 1) ∧
    (s.takePins.pins.reset = false →
      ∃ more, t.hidOut ++ t.cmdq = s.hidOut ++ s.cmdq ++ more)

/-- R12, R50, R106, with `hid_live` (R188) and no RESET on the reset input: from every state the machine comes to rest having taken
every input, in order, and having had the whole reaction to each; the commands it emits are those of the reactions. The steps
in between are the model's (log 3), and so is that a RESET event leaves the inputs after it in place (log 26). -/
def Obligations.LiveMachineReactsToEveryInput : Prop :=
  ∀ s u : State, hidLive s → noResetAhead s →
    reactAll s.inbox { s.flush with inbox := [] } = .next u →
    ∃ n, run n s = .next { u with pins := s.lastPins, pinTrace := [] }

/-! ### The HID layer -/

/-- R171: the keyboard commands on HK; no mouse command changes it. -/
def Obligations.KeyboardCommandsOnHidLayer : Prop :=
  ∀ (h : HidShadow) (S : KeySet) (k j m : Byte) (x y w : Int),
    KeySet.has (h.act (.kbdPress S)).keys j = (KeySet.has h.keys j || KeySet.has S j) ∧
    KeySet.has (h.act (.kbdRelease k)).keys j = (KeySet.has h.keys j && decide (j ≠ k)) ∧
    KeySet.has (h.act .kbdReleaseAll).keys j = false ∧
    (h.act (.mousePress m)).keys = h.keys ∧ (h.act .mouseReleaseAll).keys = h.keys ∧ (h.act (.mouseMove x y w)).keys = h.keys

/-- R172 (D20, log 13): the mouse commands on HB, the press by the environment's reading, of which nothing is assumed when it is
neither of the two the spec names; no keyboard command changes HB. -/
def Obligations.MouseCommandsOnHidLayer : Prop :=
  ∀ (h : HidShadow) (S : KeySet) (k m : Byte) (x y w : Int),
    (h.reading = .orInto → (h.act (.mousePress m)).buttons = h.buttons ||| m) ∧
    (h.reading = .replace → (h.act (.mousePress m)).buttons = m) ∧
    (h.act .mouseReleaseAll).buttons = 0x00#8 ∧ (h.act (.mouseMove x y w)).buttons = h.buttons ∧
    (h.act (.kbdPress S)).buttons = h.buttons ∧ (h.act (.kbdRelease k)).buttons = h.buttons ∧
    (h.act .kbdReleaseAll).buttons = h.buttons

/-- R173, R29(b) (derived there; the moment a command acts is log 4): HK is AKS once the commands to come are out. Every step but
RESET keeps it, from every state. -/
def Obligations.StepKeepsKeyAgreement : Prop :=
  ∀ s t : State, KeysAgree s → s.takePins.pins.reset = false → (s.applying = true ∨ s.inbox.head? ≠ some .reset) →
    step s = .next t → KeysAgree t

/-- R173 (derived there): an idle keyboard frame empties HK and AKS from any HK, agreement or none; a frame with a candidate does
not repair a key pressed at the HID layer that is neither asserted nor wanted. -/
def Obligations.IdleFrameRepairsHidLayer : Prop :=
  (∀ s : State, ∃ t, react (.frame [0x10#8, 0, 0, 0, 0, 0, 0, 0, 0x0A#8]) { s with cmdq := [] } = .next t ∧
    t.hid.keys = KeySet.empty ∧ t.getAks = KeySet.empty) ∧
  ∀ (s : State) (mod k0 k1 k2 k3 k4 k5 stuck : Byte), s.cmdq = [] →
    candidate mod [k0, k1, k2, k3, k4, k5] ≠ KeySet.empty →
    KeySet.has s.hid.keys stuck = true → KeySet.has s.getAks stuck = false →
    ∃ t, react (.frame [0x10#8, mod, k0, k1, k2, k3, k4, k5, 0x0A#8]) s = .next t ∧ KeySet.has t.hid.keys stuck = true

/-- R173, R51: at no moment between the commands of a keyboard frame is a key being released pressed together with a newly pressed
key. -/
def Obligations.ReleasedAndPressedNeverTogether : Prop :=
  ∀ (mod k0 k1 k2 k3 k4 k5 : Byte) (s : State), s.cmdq = [] → s.hid.keys = s.getAks →
    ∃ t, exec (.kbd mod k0 k1 k2 k3 k4 k5) s = .next t ∧
      ∀ n old new : _, KeySet.has s.getAks old = true → KeySet.has t.getAks old = false →
        KeySet.has t.getAks new = true → KeySet.has s.getAks new = false →
        ¬(KeySet.has (s.hid.actAll (t.cmdq.take n)).keys old = true ∧ KeySet.has (s.hid.actAll (t.cmdq.take n)).keys new = true)

/-- D7: whatever the order of the single releases of a frame, the HID layer ends in the same state. -/
def Obligations.ReleaseOrderDoesNotMatter : Prop :=
  ∀ (h : HidShadow) (ks ks' : List Byte) (rest : List Command), ks.Perm ks' →
    h.actAll (ks.map Command.kbdRelease ++ rest) = h.actAll (ks'.map Command.kbdRelease ++ rest)

/-- R174 (derived there), under the OR reading of R172 (D20): HB = ABM is kept by a mouse frame, unless the mask changes from one
non-zero value to another; then HB is both masks and ABM the new one. Under the reading that replaces, it is always kept. -/
def Obligations.MouseAgreementInPart : Prop :=
  ∀ (m dx dy wheel : Byte) (s : State), s.cmdq = [] → s.hid.buttons = s.getAbm →
    ∃ t, exec (.mouse m dx dy wheel) s = .next t ∧ t.getAbm = m ∧
      (s.hid.reading = .orInto → ¬(m ≠ 0x00#8 ∧ s.getAbm ≠ 0x00#8 ∧ m ≠ s.getAbm) → (t.hid.actAll t.cmdq).buttons = m) ∧
      (s.hid.reading = .orInto → m ≠ 0x00#8 ∧ s.getAbm ≠ 0x00#8 ∧ m ≠ s.getAbm →
        (t.hid.actAll t.cmdq).buttons = s.getAbm ||| m) ∧
      (s.hid.reading = .replace → (t.hid.actAll t.cmdq).buttons = m)

/-- R174, R209 (derived there): whatever HB is and whatever the reading of a press, a frame with no button, when ABM has one, leaves
HB = ABM = 0. -/
def Obligations.ReleaseFrameRepairsButtons : Prop :=
  ∀ (dx dy wheel : Byte) (s : State), s.cmdq = [] → s.getAbm ≠ 0x00#8 →
    ∃ t, exec (.mouse 0x00#8 dx dy wheel) s = .next t ∧ t.getAbm = 0x00#8 ∧ (t.hid.actAll t.cmdq).buttons = 0x00#8
end

