-- ==== Sys2Proof/Laws/Decode.lean ====
section
/-! SUPPORT. What the classifier and the decoder answer, case by case. -/

namespace Sys2Proof

/-! The constants as numerals, for `omega`. -/

theorem kbd_len_eq : Config.KBD_LEN = 9 := rfl

theorem mouse_len_eq : Config.MOUSE_LEN = 6 := rfl

theorem rx_max_eq : Config.RX_MAX = 32 := rfl

theorem n_slots_eq : Config.N_SLOTS = 6 := rfl

theorem n_modbits_eq : Config.N_MODBITS = 8 := rfl

theorem kbd_tag_ne_mouse_tag : Config.KBD_TAG ≠ Config.MOUSE_TAG := by decide

@[simp] theorem byteAt_zero (b : Byte) (f : List Byte) : byteAt (b :: f) 0 = b := rfl

@[simp] theorem byteAt_succ (b : Byte) (f : List Byte) (i : Nat) : byteAt (b :: f) (i + 1) = byteAt f i := rfl

theorem classify_nil : classify [] = .dropEmpty := rfl

theorem classify_kbd (mod k0 k1 k2 k3 k4 k5 t : Byte) :
    classify [Config.KBD_TAG, mod, k0, k1, k2, k3, k4, k5, t] = .kbd mod k0 k1 k2 k3 k4 k5 := rfl

theorem classify_mouse (b x y w t : Byte) : classify [Config.MOUSE_TAG, b, x, y, w, t] = .mouse b x y w := by
  unfold classify
  rw [if_neg (by simp), byteAt_zero, if_neg kbd_tag_ne_mouse_tag.symm, if_pos rfl]
  rfl

theorem classify_dropLenK {rest : List Byte} (h : rest.length + 1 ≠ Config.KBD_LEN) :
    classify (Config.KBD_TAG :: rest) = .dropLenK rest := by
  unfold classify
  rw [if_neg (by simp), byteAt_zero, if_pos rfl, if_neg (by simpa using h)]
  rfl

theorem classify_dropLenM {rest : List Byte} (h : rest.length + 1 ≠ Config.MOUSE_LEN) :
    classify (Config.MOUSE_TAG :: rest) = .dropLenM rest := by
  unfold classify
  rw [if_neg (by simp), byteAt_zero, if_neg kbd_tag_ne_mouse_tag.symm, if_pos rfl, if_neg (by simpa using h)]
  rfl

theorem classify_dropTag {tag : Byte} {rest : List Byte} (hk : tag ≠ Config.KBD_TAG) (hm : tag ≠ Config.MOUSE_TAG) :
    classify (tag :: rest) = .dropTag tag rest := by
  unfold classify
  rw [if_neg (by simp), byteAt_zero, if_neg hk, if_neg hm]
  rfl

/-- A chunk whose length is neither 9 nor 6 is no frame. -/
theorem classify_cause_of_length {f : List Byte} (hk : f.length ≠ Config.KBD_LEN) (hm : f.length ≠ Config.MOUSE_LEN) :
    (classify f).cause ≠ none := by
  simp only [classify, if_neg hk, if_neg hm]
  split
  · simp [Classified.cause]
  · split
    · simp [Classified.cause]
    · split
      · simp [Classified.cause]
      · simp [Classified.cause]

theorem decodeChunk_of_length {f : List Byte} (h : f.length ≤ Config.RX_MAX) :
    decodeChunk f = .run (classify f).toInstr := if_pos h

theorem decodeChunk_too_long {f : List Byte} (h : Config.RX_MAX < f.length) : decodeChunk f = .reject .chunkTooLong :=
  if_neg (by omega)

@[simp] theorem length_padSlots (codes : List Byte) : (padSlots codes).length = Config.N_SLOTS := by
  simp [padSlots]

/-- The slots of KBD.KEYS one by one. -/
theorem padSlots_eq (codes : List Byte) :
    padSlots codes = [slotOf codes 0, slotOf codes 1, slotOf codes 2, slotOf codes 3, slotOf codes 4, slotOf codes 5] := by
  have h := length_padSlots codes
  unfold slotOf
  generalize padSlots codes = l at *
  match l, h with
  | [_, _, _, _, _, _], _ => rfl

@[simp] theorem length_wordBytes (n w : Nat) : (wordBytes n w).length = n := by
  induction n generalizing w with
  | zero => rfl
  | succ n ih => simp [wordBytes, ih]

end Sys2Proof
end

