-- ==== Sys2Proof/Laws/KeySet.lean ====
section
/-! SUPPORT. What each operation on key sets does, member by member. -/

namespace Sys2Proof.Machine.KeySet

theorem has_ext {a b : KeySet} (h : ∀ k, has a k = has b k) : a = b := by
  apply BitVec.eq_of_getLsbD_eq
  intro i hi
  have := h (BitVec.ofNat 8 i)
  simpa [has, Nat.mod_eq_of_lt hi] using this

@[simp] theorem has_empty (k : Byte) : has empty k = false := by simp [has, empty]

@[simp] theorem has_union (a b : KeySet) (k : Byte) : has (union a b) k = (has a k || has b k) := by simp [has, union]

@[simp] theorem has_inter (a b : KeySet) (k : Byte) : has (inter a b) k = (has a k && has b k) := by simp [has, inter]

@[simp] theorem has_diff (a b : KeySet) (k : Byte) : has (diff a b) k = (has a k && !has b k) := by
  simp [has, diff, k.isLt]

@[simp] theorem has_single (j k : Byte) : has (single j) k = decide (k = j) := by
  have hk := k.isLt
  simp only [has, single, BitVec.getLsbD_shiftLeft, BitVec.getLsbD_one]
  by_cases h : k = j
  · simp [h, j.isLt]
  · have hne : k.toNat ≠ j.toNat := fun e => h (BitVec.eq_of_toNat_eq e)
    rw [decide_eq_false h]
    by_cases h2 : k.toNat < j.toNat
    · simp [h2]
    · have : k.toNat - j.toNat ≠ 0 := by omega
      simp [this]

@[simp] theorem has_ofList (l : List Byte) (k : Byte) : has (ofList l) k = decide (k ∈ l) := by
  induction l with
  | nil => simp [ofList]
  | cons j l ih => simp [ofList, ih]

@[simp] theorem mem_asc (a : KeySet) (k : Byte) : k ∈ asc a ↔ has a k = true := by
  simp only [asc, List.mem_map, List.mem_filter, List.mem_range, has]
  constructor
  · rintro ⟨n, ⟨hn, hb⟩, rfl⟩
    simpa [Nat.mod_eq_of_lt hn] using hb
  · intro h
    exact ⟨k.toNat, ⟨k.isLt, h⟩, by simp⟩

/-- `asc` lists the members in strictly ascending numeric order. -/
theorem asc_sorted (a : KeySet) : (asc a).Pairwise (fun j k => j.toNat < k.toNat) := by
  rw [asc, List.pairwise_map]
  have h : (List.range 256).Pairwise (· < ·) := List.pairwise_lt_range
  refine (h.filter _).imp_of_mem ?_
  intro m n hm hn hlt
  have hm := (List.mem_filter.mp hm).1
  have hn := (List.mem_filter.mp hn).1
  rw [List.mem_range] at hm hn
  simpa [Nat.mod_eq_of_lt hm, Nat.mod_eq_of_lt hn] using hlt

theorem asc_nodup (a : KeySet) : (asc a).Nodup := by
  refine (asc_sorted a).imp ?_
  intro j k h e
  simp [e] at h

/-- A set whose members all stand in a list has no more members than the list has entries. -/
theorem card_le_length {a : KeySet} {l : List Byte} (h : ∀ k, has a k = true → k ∈ l) : card a ≤ l.length :=
  ((asc_nodup a).subperm fun k hk => h k ((mem_asc a k).mp hk)).length_le

theorem eq_empty_iff (a : KeySet) : a = empty ↔ ∀ k, has a k = false := by
  constructor
  · rintro rfl k; simp
  · intro h; apply has_ext; simpa using h

@[simp] theorem asc_empty : asc empty = [] := by
  rw [List.eq_nil_iff_forall_not_mem]
  intro k; simp

theorem diff_self (a : KeySet) : diff a a = empty := by apply has_ext; intro k; simp

theorem asc_eq_nil_iff (a : KeySet) : asc a = [] ↔ a = empty := by
  rw [List.eq_nil_iff_forall_not_mem, eq_empty_iff]
  simp

end Sys2Proof.Machine.KeySet
end

