-- ==== Sys2Proof/Laws/State.lean ====
section
/-! SUPPORT. One lemma per field and update of the state, and the small lemmas of the register accessors. -/

namespace Sys2Proof.Machine

@[simp] theorem State.setAks_aks (s : State) (v : KeySet) : (s.setAks v).aks = hardwire v := rfl
@[simp] theorem State.setAks_abm (s : State) (v : KeySet) : (s.setAks v).abm = s.abm := rfl
@[simp] theorem State.setAks_rxbuf (s : State) (v : KeySet) : (s.setAks v).rxbuf = s.rxbuf := rfl
@[simp] theorem State.setAks_cmdq (s : State) (v : KeySet) : (s.setAks v).cmdq = s.cmdq := rfl
@[simp] theorem State.setAks_port (s : State) (v : KeySet) : (s.setAks v).port = s.port := rfl
@[simp] theorem State.setAks_hidOut (s : State) (v : KeySet) : (s.setAks v).hidOut = s.hidOut := rfl
@[simp] theorem State.setAks_hid (s : State) (v : KeySet) : (s.setAks v).hid = s.hid := rfl
@[simp] theorem State.setAks_inbox (s : State) (v : KeySet) : (s.setAks v).inbox = s.inbox := rfl
@[simp] theorem State.setAks_pins (s : State) (v : KeySet) : (s.setAks v).pins = s.pins := rfl
@[simp] theorem State.setAks_pinTrace (s : State) (v : KeySet) : (s.setAks v).pinTrace = s.pinTrace := rfl

@[simp] theorem State.setAbm_aks (s : State) (m : Byte) : (s.setAbm m).aks = s.aks := rfl
@[simp] theorem State.setAbm_abm (s : State) (m : Byte) : (s.setAbm m).abm = m := rfl
@[simp] theorem State.setAbm_rxbuf (s : State) (m : Byte) : (s.setAbm m).rxbuf = s.rxbuf := rfl
@[simp] theorem State.setAbm_cmdq (s : State) (m : Byte) : (s.setAbm m).cmdq = s.cmdq := rfl
@[simp] theorem State.setAbm_port (s : State) (m : Byte) : (s.setAbm m).port = s.port := rfl
@[simp] theorem State.setAbm_hidOut (s : State) (m : Byte) : (s.setAbm m).hidOut = s.hidOut := rfl
@[simp] theorem State.setAbm_hid (s : State) (m : Byte) : (s.setAbm m).hid = s.hid := rfl
@[simp] theorem State.setAbm_inbox (s : State) (m : Byte) : (s.setAbm m).inbox = s.inbox := rfl
@[simp] theorem State.setAbm_pins (s : State) (m : Byte) : (s.setAbm m).pins = s.pins := rfl
@[simp] theorem State.setAbm_pinTrace (s : State) (m : Byte) : (s.setAbm m).pinTrace = s.pinTrace := rfl

@[simp] theorem State.memPush_aks (s : State) (b : Byte) : (s.memPush b).aks = s.aks := rfl
@[simp] theorem State.memPush_abm (s : State) (b : Byte) : (s.memPush b).abm = s.abm := rfl
@[simp] theorem State.memPush_rxbuf (s : State) (b : Byte) : (s.memPush b).rxbuf = s.rxbuf ++ [b] := rfl
@[simp] theorem State.memPush_cmdq (s : State) (b : Byte) : (s.memPush b).cmdq = s.cmdq := rfl
@[simp] theorem State.memPush_port (s : State) (b : Byte) : (s.memPush b).port = s.port := rfl
@[simp] theorem State.memPush_hidOut (s : State) (b : Byte) : (s.memPush b).hidOut = s.hidOut := rfl
@[simp] theorem State.memPush_hid (s : State) (b : Byte) : (s.memPush b).hid = s.hid := rfl
@[simp] theorem State.memPush_inbox (s : State) (b : Byte) : (s.memPush b).inbox = s.inbox := rfl
@[simp] theorem State.memPush_pins (s : State) (b : Byte) : (s.memPush b).pins = s.pins := rfl
@[simp] theorem State.memPush_pinTrace (s : State) (b : Byte) : (s.memPush b).pinTrace = s.pinTrace := rfl

@[simp] theorem State.memClear_aks (s : State) : (s.memClear).aks = s.aks := rfl
@[simp] theorem State.memClear_abm (s : State) : (s.memClear).abm = s.abm := rfl
@[simp] theorem State.memClear_rxbuf (s : State) : (s.memClear).rxbuf = [] := rfl
@[simp] theorem State.memClear_cmdq (s : State) : (s.memClear).cmdq = s.cmdq := rfl
@[simp] theorem State.memClear_port (s : State) : (s.memClear).port = s.port := rfl
@[simp] theorem State.memClear_hidOut (s : State) : (s.memClear).hidOut = s.hidOut := rfl
@[simp] theorem State.memClear_hid (s : State) : (s.memClear).hid = s.hid := rfl
@[simp] theorem State.memClear_inbox (s : State) : (s.memClear).inbox = s.inbox := rfl
@[simp] theorem State.memClear_pins (s : State) : (s.memClear).pins = s.pins := rfl
@[simp] theorem State.memClear_pinTrace (s : State) : (s.memClear).pinTrace = s.pinTrace := rfl

@[simp] theorem State.emit_aks (s : State) (c : Command) : (s.emit c).aks = s.aks := rfl
@[simp] theorem State.emit_abm (s : State) (c : Command) : (s.emit c).abm = s.abm := rfl
@[simp] theorem State.emit_rxbuf (s : State) (c : Command) : (s.emit c).rxbuf = s.rxbuf := rfl
@[simp] theorem State.emit_cmdq (s : State) (c : Command) : (s.emit c).cmdq = s.cmdq ++ [c] := rfl
@[simp] theorem State.emit_port (s : State) (c : Command) : (s.emit c).port = s.port := rfl
@[simp] theorem State.emit_hidOut (s : State) (c : Command) : (s.emit c).hidOut = s.hidOut := rfl
@[simp] theorem State.emit_hid (s : State) (c : Command) : (s.emit c).hid = s.hid := rfl
@[simp] theorem State.emit_inbox (s : State) (c : Command) : (s.emit c).inbox = s.inbox := rfl
@[simp] theorem State.emit_pins (s : State) (c : Command) : (s.emit c).pins = s.pins := rfl
@[simp] theorem State.emit_pinTrace (s : State) (c : Command) : (s.emit c).pinTrace = s.pinTrace := rfl

@[simp] theorem State.emitAll_aks (s : State) (cs : List Command) : (s.emitAll cs).aks = s.aks := rfl
@[simp] theorem State.emitAll_abm (s : State) (cs : List Command) : (s.emitAll cs).abm = s.abm := rfl
@[simp] theorem State.emitAll_rxbuf (s : State) (cs : List Command) : (s.emitAll cs).rxbuf = s.rxbuf := rfl
@[simp] theorem State.emitAll_cmdq (s : State) (cs : List Command) : (s.emitAll cs).cmdq = s.cmdq ++ cs := rfl
@[simp] theorem State.emitAll_port (s : State) (cs : List Command) : (s.emitAll cs).port = s.port := rfl
@[simp] theorem State.emitAll_hidOut (s : State) (cs : List Command) : (s.emitAll cs).hidOut = s.hidOut := rfl
@[simp] theorem State.emitAll_hid (s : State) (cs : List Command) : (s.emitAll cs).hid = s.hid := rfl
@[simp] theorem State.emitAll_inbox (s : State) (cs : List Command) : (s.emitAll cs).inbox = s.inbox := rfl
@[simp] theorem State.emitAll_pins (s : State) (cs : List Command) : (s.emitAll cs).pins = s.pins := rfl
@[simp] theorem State.emitAll_pinTrace (s : State) (cs : List Command) : (s.emitAll cs).pinTrace = s.pinTrace := rfl

@[simp] theorem State.drop_aks (s : State) (d : DropCause) : (s.drop d).aks = s.aks := rfl
@[simp] theorem State.drop_abm (s : State) (d : DropCause) : (s.drop d).abm = s.abm := rfl
@[simp] theorem State.drop_rxbuf (s : State) (d : DropCause) : (s.drop d).rxbuf = [] := rfl
@[simp] theorem State.drop_cmdq (s : State) (d : DropCause) : (s.drop d).cmdq = s.cmdq := rfl
@[simp] theorem State.drop_port (s : State) (d : DropCause) : (s.drop d).port = s.port := rfl
@[simp] theorem State.drop_hidOut (s : State) (d : DropCause) : (s.drop d).hidOut = s.hidOut := rfl
@[simp] theorem State.drop_hid (s : State) (d : DropCause) : (s.drop d).hid = s.hid := rfl
@[simp] theorem State.drop_inbox (s : State) (d : DropCause) : (s.drop d).inbox = s.inbox := rfl
@[simp] theorem State.drop_pins (s : State) (d : DropCause) : (s.drop d).pins = s.pins := rfl
@[simp] theorem State.drop_pinTrace (s : State) (d : DropCause) : (s.drop d).pinTrace = s.pinTrace := rfl

@[simp] theorem State.present_aks (s : State) (c : Command) (rest : List Command) : (s.present c rest).aks = s.aks := rfl
@[simp] theorem State.present_abm (s : State) (c : Command) (rest : List Command) : (s.present c rest).abm = s.abm := rfl
@[simp] theorem State.present_rxbuf (s : State) (c : Command) (rest : List Command) : (s.present c rest).rxbuf = s.rxbuf := rfl
@[simp] theorem State.present_cmdq (s : State) (c : Command) (rest : List Command) : (s.present c rest).cmdq = rest := rfl
@[simp] theorem State.present_port (s : State) (c : Command) (rest : List Command) : (s.present c rest).port = some c := rfl
@[simp] theorem State.present_hidOut (s : State) (c : Command) (rest : List Command) : (s.present c rest).hidOut = s.hidOut ++ [c] := rfl
@[simp] theorem State.present_hid (s : State) (c : Command) (rest : List Command) : (s.present c rest).hid = s.hid.act c := rfl
@[simp] theorem State.present_inbox (s : State) (c : Command) (rest : List Command) : (s.present c rest).inbox = s.inbox := rfl
@[simp] theorem State.present_pins (s : State) (c : Command) (rest : List Command) : (s.present c rest).pins = s.pins := rfl
@[simp] theorem State.present_pinTrace (s : State) (c : Command) (rest : List Command) : (s.present c rest).pinTrace = s.pinTrace := rfl

@[simp] theorem State.complete_aks (s : State) : s.complete.aks = s.aks := rfl
@[simp] theorem State.complete_abm (s : State) : s.complete.abm = s.abm := rfl
@[simp] theorem State.complete_rxbuf (s : State) : s.complete.rxbuf = s.rxbuf := rfl
@[simp] theorem State.complete_cmdq (s : State) : s.complete.cmdq = s.cmdq := rfl
@[simp] theorem State.complete_port (s : State) : s.complete.port = none := rfl
@[simp] theorem State.complete_hidOut (s : State) : s.complete.hidOut = s.hidOut := rfl
@[simp] theorem State.complete_hid (s : State) : s.complete.hid = s.hid := rfl
@[simp] theorem State.complete_inbox (s : State) : s.complete.inbox = s.inbox := rfl
@[simp] theorem State.complete_pins (s : State) : s.complete.pins = s.pins := rfl
@[simp] theorem State.complete_pinTrace (s : State) : s.complete.pinTrace = s.pinTrace := rfl

@[simp] theorem State.beginInput_aks (s : State) (x : Input) : (s.beginInput x).aks = s.aks := by cases x <;> rfl
@[simp] theorem State.beginInput_abm (s : State) (x : Input) : (s.beginInput x).abm = s.abm := by cases x <;> rfl
@[simp] theorem State.beginInput_cmdq (s : State) (x : Input) : (s.beginInput x).cmdq = s.cmdq := by cases x <;> rfl
@[simp] theorem State.beginInput_port (s : State) (x : Input) : (s.beginInput x).port = s.port := by cases x <;> rfl
@[simp] theorem State.beginInput_hidOut (s : State) (x : Input) : (s.beginInput x).hidOut = s.hidOut := by cases x <;> rfl
@[simp] theorem State.beginInput_hid (s : State) (x : Input) : (s.beginInput x).hid = s.hid := by cases x <;> rfl
@[simp] theorem State.beginInput_inbox (s : State) (x : Input) : (s.beginInput x).inbox = s.inbox := by cases x <;> rfl
@[simp] theorem State.beginInput_pins (s : State) (x : Input) : (s.beginInput x).pins = s.pins := by cases x <;> rfl
@[simp] theorem State.beginInput_pinTrace (s : State) (x : Input) : (s.beginInput x).pinTrace = s.pinTrace := by cases x <;> rfl
@[simp] theorem State.beginInput_frame (s : State) (f : List Byte) : s.beginInput (.frame f) = s.memClear := rfl
@[simp] theorem State.beginInput_rxbyte (s : State) (b : Byte) : s.beginInput (.rxbyte b) = s := rfl
@[simp] theorem State.beginInput_timeout (s : State) : s.beginInput .timeout = s := rfl
@[simp] theorem State.beginInput_reset (s : State) : s.beginInput .reset = s := rfl
@[simp] theorem State.beginInput_noFrame (s : State) : s.beginInput .noFrame = s := rfl

/-- Taking an input out of the inbox and beginning it commute. -/
theorem State.beginInput_withInbox (s : State) (x : Input) (xs : List Input) :
    ({ s with inbox := xs } : State).beginInput x = { s.beginInput x with inbox := xs } := by cases x <;> rfl

/-- An empty buffer is clear already. -/
theorem State.memClear_eq_self {s : State} (h : s.rxbuf = []) : s.memClear = s := by
  cases s; simp_all [State.memClear]

/-- Only a chunk given whole touches the receive buffer before its instruction runs. -/
theorem State.beginInput_of_not_frame {x : Input} (h : ∀ f, x ≠ .frame f) (s : State) : s.beginInput x = s := by
  cases x <;> first | rfl | exact absurd rfl (h _)

@[simp] theorem State.toReset_aks (s : State) : (s.toReset).aks = hardwire KeySet.empty := rfl
@[simp] theorem State.toReset_abm (s : State) : (s.toReset).abm = 0x00#8 := rfl
@[simp] theorem State.toReset_rxbuf (s : State) : (s.toReset).rxbuf = [] := rfl
@[simp] theorem State.toReset_cmdq (s : State) : (s.toReset).cmdq = [] := rfl
@[simp] theorem State.toReset_port (s : State) : (s.toReset).port = none := rfl
@[simp] theorem State.toReset_hidOut (s : State) : (s.toReset).hidOut = s.hidOut := rfl
@[simp] theorem State.toReset_hid (s : State) : (s.toReset).hid = s.hid := rfl
@[simp] theorem State.toReset_inbox (s : State) : (s.toReset).inbox = s.inbox := rfl
@[simp] theorem State.toReset_pins (s : State) : (s.toReset).pins = s.pins := rfl
@[simp] theorem State.toReset_pinTrace (s : State) : (s.toReset).pinTrace = s.pinTrace := rfl

@[simp] theorem State.flush_aks (s : State) : (s.flush).aks = s.aks := rfl
@[simp] theorem State.flush_abm (s : State) : (s.flush).abm = s.abm := rfl
@[simp] theorem State.flush_rxbuf (s : State) : (s.flush).rxbuf = s.rxbuf := rfl
@[simp] theorem State.flush_cmdq (s : State) : (s.flush).cmdq = [] := rfl
@[simp] theorem State.flush_port (s : State) : (s.flush).port = none := rfl
@[simp] theorem State.flush_hidOut (s : State) : (s.flush).hidOut = s.hidOut ++ s.cmdq := rfl
@[simp] theorem State.flush_hid (s : State) : (s.flush).hid = s.hid.actAll s.cmdq := rfl
@[simp] theorem State.flush_inbox (s : State) : (s.flush).inbox = s.inbox := rfl
@[simp] theorem State.flush_pins (s : State) : (s.flush).pins = s.pins := rfl
@[simp] theorem State.flush_pinTrace (s : State) : (s.flush).pinTrace = s.pinTrace := rfl

@[simp] theorem State.withChunkNext_aks (s : State) (f : List Byte) : (s.withChunkNext f).aks = s.aks := rfl
@[simp] theorem State.withChunkNext_abm (s : State) (f : List Byte) : (s.withChunkNext f).abm = s.abm := rfl
@[simp] theorem State.withChunkNext_rxbuf (s : State) (f : List Byte) : (s.withChunkNext f).rxbuf = s.rxbuf := rfl
@[simp] theorem State.withChunkNext_cmdq (s : State) (f : List Byte) : (s.withChunkNext f).cmdq = [] := rfl
@[simp] theorem State.withChunkNext_port (s : State) (f : List Byte) : (s.withChunkNext f).port = none := rfl
@[simp] theorem State.withChunkNext_hidOut (s : State) (f : List Byte) : (s.withChunkNext f).hidOut = s.hidOut := rfl
@[simp] theorem State.withChunkNext_hid (s : State) (f : List Byte) : (s.withChunkNext f).hid = s.hid := rfl
@[simp] theorem State.withChunkNext_inbox (s : State) (f : List Byte) : (s.withChunkNext f).inbox = Input.frame f :: s.inbox := rfl
@[simp] theorem State.withChunkNext_pins (s : State) (f : List Byte) : (s.withChunkNext f).pins = { s.pins with reset := false } := rfl
@[simp] theorem State.withChunkNext_pinTrace (s : State) (f : List Byte) : (s.withChunkNext f).pinTrace = [] := rfl

@[simp] theorem State.takePins_aks (s : State) : s.takePins.aks = s.aks := by unfold State.takePins; split <;> rfl
@[simp] theorem State.takePins_abm (s : State) : s.takePins.abm = s.abm := by unfold State.takePins; split <;> rfl
@[simp] theorem State.takePins_rxbuf (s : State) : s.takePins.rxbuf = s.rxbuf := by unfold State.takePins; split <;> rfl
@[simp] theorem State.takePins_cmdq (s : State) : s.takePins.cmdq = s.cmdq := by unfold State.takePins; split <;> rfl
@[simp] theorem State.takePins_port (s : State) : s.takePins.port = s.port := by unfold State.takePins; split <;> rfl
@[simp] theorem State.takePins_hidOut (s : State) : s.takePins.hidOut = s.hidOut := by unfold State.takePins; split <;> rfl
@[simp] theorem State.takePins_hid (s : State) : s.takePins.hid = s.hid := by unfold State.takePins; split <;> rfl
@[simp] theorem State.takePins_inbox (s : State) : s.takePins.inbox = s.inbox := by unfold State.takePins; split <;> rfl
@[simp] theorem State.takePins_pinTrace (s : State) : s.takePins.pinTrace = s.pinTrace.tail := by
  unfold State.takePins; split <;> simp_all
theorem State.takePins_pins (s : State) : s.takePins.pins = s.pinTrace.headD s.pins := by
  unfold State.takePins; split <;> simp_all

@[simp] theorem has_hardwire (v : KeySet) (k : Byte) :
    KeySet.has (hardwire v) k = (KeySet.has v k && !decide (k = Config.EMPTY_SLOT)) := by simp [hardwire]

@[simp] theorem hardwire_hardwire (v : KeySet) : hardwire (hardwire v) = hardwire v := by
  apply KeySet.has_ext; intro k; simp

@[simp] theorem hardwire_empty : hardwire KeySet.empty = KeySet.empty := by
  apply KeySet.has_ext; intro k; simp

/-- A set without 0 is unchanged by the hardwired bit. -/
theorem hardwire_eq_self {v : KeySet} (h : KeySet.has v Config.EMPTY_SLOT = false) : hardwire v = v := by
  apply KeySet.has_ext
  intro k
  by_cases hk : k = Config.EMPTY_SLOT
  · subst hk; simp [h]
  · simp [hk]

@[simp] theorem State.getAks_setAks (s : State) (v : KeySet) : (s.setAks v).getAks = hardwire v := by
  simp [State.getAks]

/-- Any field update that keeps `aks` keeps the read of AKS. -/
theorem State.getAks_congr {s t : State} (h : t.aks = s.aks) : t.getAks = s.getAks := by simp [State.getAks, h]

@[simp] theorem State.getAks_setAbm (s : State) (m : Byte) : (s.setAbm m).getAks = s.getAks := rfl
@[simp] theorem State.getAks_memPush (s : State) (b : Byte) : (s.memPush b).getAks = s.getAks := rfl
@[simp] theorem State.getAks_memClear (s : State) : (s.memClear).getAks = s.getAks := rfl
@[simp] theorem State.getAks_emit (s : State) (c : Command) : (s.emit c).getAks = s.getAks := rfl
@[simp] theorem State.getAks_emitAll (s : State) (cs : List Command) : (s.emitAll cs).getAks = s.getAks := rfl
@[simp] theorem State.getAks_beginInput (s : State) (x : Input) : (s.beginInput x).getAks = s.getAks := by cases x <;> rfl
@[simp] theorem State.getAks_drop (s : State) (d : DropCause) : (s.drop d).getAks = s.getAks := rfl
@[simp] theorem State.getAks_flush (s : State) : (s.flush).getAks = s.getAks := rfl
@[simp] theorem State.getAks_withChunkNext (s : State) (f : List Byte) : (s.withChunkNext f).getAks = s.getAks := rfl

@[simp] theorem State.getAks_present (s : State) (c : Command) (rest : List Command) : (s.present c rest).getAks = s.getAks := rfl
@[simp] theorem State.getAks_complete (s : State) : s.complete.getAks = s.getAks := rfl

@[simp] theorem State.getAks_toReset (s : State) : s.toReset.getAks = KeySet.empty := by simp [State.getAks]

/-- AKS never has the key code 0 (R30 INV1): the bit is hardwired. -/
@[simp] theorem State.has_getAks_zero (s : State) : KeySet.has s.getAks Config.EMPTY_SLOT = false := by simp [State.getAks]

@[simp] theorem State.hardwire_getAks (s : State) : hardwire s.getAks = s.getAks := by simp [State.getAks]

/-- Any field update that keeps `abm` keeps the read of ABM. -/
theorem State.getAbm_congr {s t : State} (h : t.abm = s.abm) : t.getAbm = s.getAbm := h

@[simp] theorem State.getAbm_setAbm (s : State) (m : Byte) : (s.setAbm m).getAbm = m := rfl
@[simp] theorem State.getAbm_setAks (s : State) (v : KeySet) : (s.setAks v).getAbm = s.getAbm := rfl
@[simp] theorem State.getAbm_memPush (s : State) (b : Byte) : (s.memPush b).getAbm = s.getAbm := rfl
@[simp] theorem State.getAbm_memClear (s : State) : s.memClear.getAbm = s.getAbm := rfl
@[simp] theorem State.getAbm_emit (s : State) (c : Command) : (s.emit c).getAbm = s.getAbm := rfl
@[simp] theorem State.getAbm_emitAll (s : State) (cs : List Command) : (s.emitAll cs).getAbm = s.getAbm := rfl
@[simp] theorem State.getAbm_beginInput (s : State) (x : Input) : (s.beginInput x).getAbm = s.getAbm := by cases x <;> rfl
@[simp] theorem State.getAbm_drop (s : State) (d : DropCause) : (s.drop d).getAbm = s.getAbm := rfl
@[simp] theorem State.getAbm_toReset (s : State) : s.toReset.getAbm = 0x00#8 := rfl
@[simp] theorem State.getAbm_present (s : State) (c : Command) (rest : List Command) : (s.present c rest).getAbm = s.getAbm := rfl
@[simp] theorem State.getAbm_complete (s : State) : s.complete.getAbm = s.getAbm := rfl
@[simp] theorem State.getAbm_flush (s : State) : s.flush.getAbm = s.getAbm := rfl

@[simp] theorem State.drop_eq (s : State) (d : DropCause) : s.drop d = s.memClear := rfl
@[simp] theorem State.memClear_memClear (s : State) : s.memClear.memClear = s.memClear := rfl

end Sys2Proof.Machine
end

