-- ==== Sys2Proof/Laws/Keyboard.lean ====
section
/-! SUPPORT. The sets of a keyboard frame and the net effect of the keyboard reconciler. -/

namespace Sys2Proof.Machine

@[simp] theorem modTab_toNat (i : Fin Config.N_MODBITS) : (modTab i).toNat = 0xE0 + i.val := by
  have hi : i.val < 8 := i.isLt
  unfold modTab
  simp only [BitVec.toNat_add, BitVec.toNat_ofNat]
  omega

theorem modTab_ne_zero (i : Fin Config.N_MODBITS) : modTab i ≠ Config.EMPTY_SLOT := by
  intro h
  have := congrArg BitVec.toNat h
  simp at this

theorem isModifierCode_modTab (i : Fin Config.N_MODBITS) : isModifierCode (modTab i) = true := by
  have hi : i.val < 8 := i.isLt
  simp [isModifierCode]

theorem mem_modifierCodes (mod k : Byte) :
    k ∈ modifierCodes mod ↔ ∃ i : Fin Config.N_MODBITS, mod.getLsbD i.val = true ∧ modTab i = k := by
  simp [modifierCodes]

theorem length_modifierCodes_le (mod : Byte) : (modifierCodes mod).length ≤ Config.N_MODBITS := by
  rw [modifierCodes, List.length_map]
  exact (List.length_filter_le _ _).trans (by simp)

theorem isModifierCode_of_mem_modifierCodes {mod k : Byte} (h : k ∈ modifierCodes mod) : isModifierCode k = true := by
  obtain ⟨i, -, rfl⟩ := (mem_modifierCodes mod k).mp h
  exact isModifierCode_modTab i

@[simp] theorem has_modifierSet (mod k : Byte) : KeySet.has (modifierSet mod) k = decide (k ∈ modifierCodes mod) := by
  simp [modifierSet]

@[simp] theorem has_slotSet (slots : List Byte) (k : Byte) : KeySet.has (slotSet slots) k = decide (k ∈ slots) := by
  simp [slotSet]

/-- Membership in the candidate set (R133). -/
@[simp] theorem has_candidate (mod : Byte) (slots : List Byte) (k : Byte) :
    KeySet.has (candidate mod slots) k =
      ((decide (k ∈ modifierCodes mod) || decide (k ∈ slots)) && !decide (k = Config.EMPTY_SLOT)) := by
  simp [candidate]

theorem candidate_zero (mod : Byte) (slots : List Byte) : KeySet.has (candidate mod slots) Config.EMPTY_SLOT = false := by
  rw [has_candidate, decide_eq_true rfl]
  simp

@[simp] theorem hardwire_candidate (mod : Byte) (slots : List Byte) :
    hardwire (candidate mod slots) = candidate mod slots := hardwire_eq_self (candidate_zero mod slots)

/-- Two frames whose modifiers and slots name the same codes have the same candidate set. -/
theorem candidate_congr {mod mod' : Byte} {slots slots' : List Byte}
    (h : ∀ k, k ≠ Config.EMPTY_SLOT →
      (k ∈ modifierCodes mod ∨ k ∈ slots ↔ k ∈ modifierCodes mod' ∨ k ∈ slots')) :
    candidate mod slots = candidate mod' slots' := by
  apply KeySet.has_ext
  intro k
  by_cases hk : k = Config.EMPTY_SLOT
  · subst hk; rw [candidate_zero, candidate_zero]
  · have := h k hk
    simp only [has_candidate, hk, decide_false, Bool.not_false, Bool.and_true]
    rw [← Bool.decide_or, ← Bool.decide_or]
    exact decide_eq_decide.mpr this

/-- At most 14 candidates (R133). -/
theorem card_candidate_le (mod : Byte) (slots : List Byte) :
    KeySet.card (candidate mod slots) ≤ Config.N_MODBITS + slots.length := by
  have h : KeySet.card (candidate mod slots) ≤ (modifierCodes mod ++ slots).length := by
    apply KeySet.card_le_length
    intro k hk
    rw [List.mem_append]
    simp only [has_candidate, Bool.and_eq_true, Bool.or_eq_true, decide_eq_true_eq] at hk
    exact hk.1
  have := length_modifierCodes_le mod
  rw [List.length_append] at h
  omega

/-- Only the slots supply candidates outside the modifier range (R30 INV4). -/
theorem plain_candidates_le (mod : Byte) (slots : List Byte) :
    ((KeySet.asc (candidate mod slots)).filter fun k => !isModifierCode k).length ≤ slots.length := by
  refine List.Subperm.length_le (List.Nodup.subperm ((KeySet.asc_nodup _).filter _) ?_)
  intro k hk
  rw [List.mem_filter, KeySet.mem_asc] at hk
  obtain ⟨hk, hm⟩ := hk
  simp only [has_candidate, Bool.and_eq_true, Bool.or_eq_true, decide_eq_true_eq] at hk
  rcases hk.1 with h | h
  · rw [isModifierCode_of_mem_modifierCodes h] at hm
    exact absurd hm (by decide)
  · exact h

/-- The commands of a keyboard frame with candidate set `c` when `a` is asserted. -/
def keyboardCommands (a c : KeySet) : List Command :=
  (KeySet.asc (releaseSet a c)).map Command.kbdRelease ++
    ((if c = KeySet.empty then [Command.kbdReleaseAll] else []) ++ [Command.kbdPress c])

/-- The keyboard reconciler in one equation: AKS becomes the candidate set, the commands follow, nothing else changes. -/
theorem reconcileKeyboard_eq (mod : Byte) (slots : List Byte) (s : State) :
    reconcileKeyboard mod slots s =
      { s with
        aks := candidate mod slots
        cmdq := s.cmdq ++ keyboardCommands s.getAks (candidate mod slots) } := by
  have hset : hardwire (KeySet.union (hardwire (KeySet.diff s.getAks (releaseSet s.getAks (candidate mod slots))))
      (candidate mod slots)) = candidate mod slots := by
    apply KeySet.has_ext
    intro k
    have h0 := candidate_zero mod slots
    by_cases hk : k = Config.EMPTY_SLOT
    · subst hk
      simp only [has_hardwire, KeySet.has_union, KeySet.has_diff, h0]
      simp
    · simp only [has_hardwire, KeySet.has_union, KeySet.has_diff, releaseSet]
      cases KeySet.has s.getAks k <;> cases KeySet.has (candidate mod slots) k <;> simp [hk]
  generalize hc : candidate mod slots = c at *
  by_cases he : c = KeySet.empty
  · subst he
    simp only [reconcileKeyboard, hc, releaseAllIfIdle, if_true, addCandidates, releaseStale, keyboardCommands]
    simp [State.emit, State.emitAll, State.setAks, State.getAks]
  · simp only [reconcileKeyboard, hc, releaseAllIfIdle, if_neg he, addCandidates, releaseStale, keyboardCommands,
      State.getAks_setAks]
    simp only [State.emit, State.emitAll, State.setAks]
    rw [show (State.getAks { s with cmdq := s.cmdq ++ List.map Command.kbdRelease (KeySet.asc (releaseSet s.getAks c)) })
      = s.getAks from rfl, hset]
    simp [List.append_assoc]

/-- AKS after a keyboard frame is its candidate set (R138). -/
@[simp] theorem getAks_reconcileKeyboard (mod : Byte) (slots : List Byte) (s : State) :
    (reconcileKeyboard mod slots s).getAks = candidate mod slots := by
  rw [reconcileKeyboard_eq]
  simp [State.getAks]

/-- The key codes of `a \ c` are released and no other. -/
theorem mem_asc_releaseSet (a c : KeySet) (k : Byte) :
    k ∈ KeySet.asc (releaseSet a c) ↔ KeySet.has a k = true ∧ KeySet.has c k = false := by
  simp [releaseSet]

/-- Releasing keys one by one takes them, and no other, out of HK. -/
theorem actAll_releases (h : HidShadow) (ks : List Byte) :
    h.actAll (ks.map Command.kbdRelease) = { h with keys := KeySet.diff h.keys (KeySet.ofList ks) } := by
  induction ks generalizing h with
  | nil =>
    have : KeySet.diff h.keys (KeySet.ofList []) = h.keys := by apply KeySet.has_ext; intro k; simp
    simp only [List.map_nil, this]; rfl
  | cons k ks ih =>
    have : KeySet.diff (KeySet.diff h.keys (KeySet.single k)) (KeySet.ofList ks)
        = KeySet.diff h.keys (KeySet.ofList (k :: ks)) := by
      apply KeySet.has_ext
      intro j
      by_cases hj : j = k <;> simp [hj]
    have hcons : h.actAll ((k :: ks).map Command.kbdRelease)
        = (h.act (Command.kbdRelease k)).actAll (ks.map Command.kbdRelease) := rfl
    rw [hcons, ih]
    simp only [HidShadow.act, this]

theorem actAll_append (h : HidShadow) (cs ds : List Command) : h.actAll (cs ++ ds) = (h.actAll cs).actAll ds := by
  simp [HidShadow.actAll]

/-- Whatever HK was, a keyboard frame takes it to the candidates and the keys that were neither asserted nor wanted, and an idle
frame to nothing (R173). -/
theorem has_actAll_keyboardCommands (h : HidShadow) (a c : KeySet) (k : Byte) :
    KeySet.has (h.actAll (keyboardCommands a c)).keys k =
      (KeySet.has c k || (decide (c ≠ KeySet.empty) && (KeySet.has h.keys k && !KeySet.has a k))) := by
  rw [keyboardCommands, actAll_append, actAll_releases]
  by_cases he : c = KeySet.empty
  · subst he
    simp [HidShadow.actAll, HidShadow.act]
  · rw [if_neg he, List.nil_append]
    simp only [HidShadow.actAll, List.foldl_cons, List.foldl_nil, HidShadow.act, KeySet.has_union, KeySet.has_diff,
      KeySet.has_ofList, mem_asc_releaseSet]
    cases KeySet.has c k <;> cases KeySet.has a k <;> simp [he]

end Sys2Proof.Machine
end

