-- ==== Sys2Proof/Laws/Mouse.lean ====
section
/-! SUPPORT. The signed reading of a byte and the net effect of the mouse reconciler. -/

namespace Sys2Proof.Machine

theorem sext8_eq_toInt (b : Byte) : sext8 b = b.toInt := by
  have hb := b.isLt
  simp only [sext8, BitVec.toInt_eq_toNat_cond]
  split <;> split <;> omega

theorem sext8_range (b : Byte) : isSigned8 (sext8 b) := by
  have hb := b.isLt
  simp only [isSigned8, sext8]
  split <;> constructor <;> omega

@[simp] theorem pat8_sext8 (b : Byte) : pat8 (sext8 b) = b := by
  rw [sext8_eq_toInt, pat8, BitVec.ofInt_toInt]

theorem sext8_pat8 {v : Int} (h : isSigned8 v) : sext8 (pat8 v) = v := by
  obtain ⟨h1, h2⟩ := h
  rw [sext8_eq_toInt, pat8, BitVec.toInt_ofInt]
  rw [Int.bmod_eq_emod]
  split <;> omega

theorem sext8_injective {a b : Byte} (h : sext8 a = sext8 b) : a = b := by
  rw [← pat8_sext8 a, h, pat8_sext8]

/-- The commands of a mouse frame when `abm` is the asserted mask. -/
def mouseCommands (abm buttons dx dy wheel : Byte) : List Command :=
  Command.mouseMove (sext8 dx) (sext8 dy) (sext8 wheel) ::
    (if buttons ≠ 0x00#8 ∧ buttons ≠ abm then [Command.mousePress buttons]
     else if buttons = 0x00#8 ∧ abm ≠ 0x00#8 then [Command.mouseReleaseAll] else [])

/-- The mouse reconciler in one equation: ABM becomes the button byte, the commands follow, nothing else changes. -/
theorem reconcileMouse_eq (buttons dx dy wheel : Byte) (s : State) :
    reconcileMouse buttons dx dy wheel s =
      { s with abm := buttons, cmdq := s.cmdq ++ mouseCommands s.getAbm buttons dx dy wheel } := by
  unfold reconcileMouse reconcileButtons buttonEdge mouseCommands
  simp only [State.getAbm_emit]
  by_cases h1 : buttons ≠ 0x00#8 ∧ buttons ≠ s.getAbm
  · simp [h1, State.emit, State.setAbm]
  · by_cases h2 : buttons = 0x00#8 ∧ s.getAbm ≠ 0x00#8
    · obtain ⟨rfl, h2⟩ := h2
      simp [h2, State.emit, State.setAbm]
    · have : buttons = s.getAbm := by
        by_contra hne
        by_cases hz : buttons = 0x00#8
        · exact h2 ⟨hz, fun h => hne (hz.trans h.symm)⟩
        · exact h1 ⟨hz, hne⟩
      simp only [if_neg h1, if_neg h2]
      cases s; simp_all [State.emit, State.getAbm]

end Sys2Proof.Machine
end

