-- ==== Sys2Proof/Laws/FrameReader.lean ====
section
/-! SUPPORT. What a chunk, an RXBYTE and any instruction can do; the receive buffer's form is kept. -/

namespace Sys2Proof.Machine

/-- What a classified chunk does to the state. -/
def chunkEffect (c : Classified) (s : State) : State :=
  match c with
  | .kbd mod k0 k1 k2 k3 k4 k5 => reconcileKeyboard mod [k0, k1, k2, k3, k4, k5] s
  | .mouse buttons dx dy wheel => reconcileMouse buttons dx dy wheel s
  | .dropLenK _ => s.memClear
  | .dropLenM _ => s.memClear
  | .dropTag _ _ => s.memClear
  | .dropEmpty => s.memClear

theorem dispatchChunk_eq (c : Classified) (s : State) : dispatchChunk c s = .next (chunkEffect c s) := by
  cases c <;> rfl

/-- The chunk-level instruction of a chunk does what the dispatch of the chunk does. -/
theorem exec_toInstr (c : Classified) (s : State) : exec c.toInstr s = .next (chunkEffect c s) := by
  cases c <;> rfl

theorem chunkEffect_of_cause {c : Classified} (h : c.cause ≠ none) (s : State) : chunkEffect c s = s.memClear := by
  cases c <;> first | rfl | exact absurd rfl h

/-- With an empty buffer a drop leaves the state as it is (R104). -/
theorem chunkEffect_of_cause_of_nil {c : Classified} (h : c.cause ≠ none) {s : State} (hb : s.rxbuf = []) : chunkEffect c s = s :=
  (chunkEffect_of_cause h s).trans (State.memClear_eq_self hb)

/-- The commands of a classified chunk. -/
def chunkCommands (c : Classified) (s : State) : List Command :=
  match c with
  | .kbd mod k0 k1 k2 k3 k4 k5 => keyboardCommands s.getAks (candidate mod [k0, k1, k2, k3, k4, k5])
  | .mouse buttons dx dy wheel => mouseCommands s.getAbm buttons dx dy wheel
  | .dropLenK _ => []
  | .dropLenM _ => []
  | .dropTag _ _ => []
  | .dropEmpty => []

/-- AKS after a classified chunk. -/
def chunkAks (c : Classified) (s : State) : KeySet :=
  match c with
  | .kbd mod k0 k1 k2 k3 k4 k5 => candidate mod [k0, k1, k2, k3, k4, k5]
  | .mouse _ _ _ _ => s.aks
  | .dropLenK _ => s.aks
  | .dropLenM _ => s.aks
  | .dropTag _ _ => s.aks
  | .dropEmpty => s.aks

/-- ABM after a classified chunk. -/
def chunkAbm (c : Classified) (s : State) : Byte :=
  match c with
  | .kbd _ _ _ _ _ _ _ => s.abm
  | .mouse buttons _ _ _ => buttons
  | .dropLenK _ => s.abm
  | .dropLenM _ => s.abm
  | .dropTag _ _ => s.abm
  | .dropEmpty => s.abm

/-- RXBUF after a classified chunk: a drop leaves it empty (R183), a frame's rule does not touch it. -/
def chunkRxbuf (c : Classified) (s : State) : Memory :=
  match c with
  | .kbd _ _ _ _ _ _ _ => s.rxbuf
  | .mouse _ _ _ _ => s.rxbuf
  | .dropLenK _ => []
  | .dropLenM _ => []
  | .dropTag _ _ => []
  | .dropEmpty => []

/-- A classified chunk writes AKS, ABM, RXBUF and the command list, and nothing else. -/
theorem chunkEffect_eq (c : Classified) (s : State) :
    chunkEffect c s =
      { s with aks := chunkAks c s, abm := chunkAbm c s, rxbuf := chunkRxbuf c s, cmdq := s.cmdq ++ chunkCommands c s } := by
  cases c <;>
    simp [chunkEffect, chunkAks, chunkAbm, chunkRxbuf, chunkCommands, reconcileKeyboard_eq, reconcileMouse_eq, State.memClear]

/-- RXBYTE closes the chunk: at TERM, or at the 32nd byte (R101). -/
def closes (b : Byte) (s : State) : Prop := b = Config.TERM ∨ s.rxlen + 1 = Config.RX_MAX

theorem execRxbyte_of_closes {b : Byte} {s : State} (h : closes b s) :
    execRxbyte b s = .next (chunkEffect (classify (s.rxbuf ++ [b])) s.memClear) := by
  have h' : b = Config.TERM ∨ (s.memPush b).rxlen = Config.RX_MAX := by
    simpa [closes, State.rxlen] using h
  simp only [execRxbyte, if_pos h', closeChunk, dispatchChunk_eq, State.memPush_rxbuf]
  rfl

theorem execRxbyte_of_not_closes {b : Byte} {s : State} (h : ¬ closes b s) : execRxbyte b s = .next (s.memPush b) := by
  have h' : ¬ (b = Config.TERM ∨ (s.memPush b).rxlen = Config.RX_MAX) := by
    simpa [closes, State.rxlen] using h
  simp only [execRxbyte, if_neg h']

/-- Every instruction answers a next state, and it is one of these four: a byte stored, the buffer cleared by a TIMEOUT, the reset
state, or a chunk's effect, with the buffer cleared before it where an RXBYTE closes the chunk. -/
theorem exec_cases (i : Instr) (s : State) :
    (∃ b, i = .rxbyte b ∧ ¬ closes b s ∧ exec i s = .next (s.memPush b)) ∨
    (∃ b, i = .rxbyte b ∧ closes b s ∧ exec i s = .next (chunkEffect (classify (s.rxbuf ++ [b])) s.memClear)) ∨
    (i = .timeout ∧ exec i s = .next s.memClear) ∨
    (i = .reset ∧ exec i s = .next s.toReset) ∨
    (∃ c, exec i s = .next (chunkEffect c s)) := by
  cases i with
  | rxbyte b =>
    by_cases h : closes b s
    · exact .inr (.inl ⟨b, rfl, h, execRxbyte_of_closes h⟩)
    · exact .inl ⟨b, rfl, h, execRxbyte_of_not_closes h⟩
  | timeout => exact .inr (.inr (.inl ⟨rfl, rfl⟩))
  | reset => exact .inr (.inr (.inr (.inl ⟨rfl, rfl⟩)))
  | kbd mod k0 k1 k2 k3 k4 k5 => exact .inr (.inr (.inr (.inr ⟨.kbd mod k0 k1 k2 k3 k4 k5, rfl⟩)))
  | mouse b x y w => exact .inr (.inr (.inr (.inr ⟨.mouse b x y w, rfl⟩)))
  | dropLenK rest => exact .inr (.inr (.inr (.inr ⟨.dropLenK rest, rfl⟩)))
  | dropLenM rest => exact .inr (.inr (.inr (.inr ⟨.dropLenM rest, rfl⟩)))
  | dropTag tag rest => exact .inr (.inr (.inr (.inr ⟨.dropTag tag rest, rfl⟩)))
  | dropEmpty => exact .inr (.inr (.inr (.inr ⟨.dropEmpty, rfl⟩)))
  | kbdIdle => exact .inr (.inr (.inr (.inr ⟨.kbd 0 0 0 0 0 0 0, rfl⟩)))
  | kbdKeys mod codes =>
    refine .inr (.inr (.inr (.inr ⟨.kbd mod (slotOf codes 0) (slotOf codes 1) (slotOf codes 2) (slotOf codes 3)
      (slotOf codes 4) (slotOf codes 5), ?_⟩)))
    simp only [exec, execKbdKeys, chunkEffect, padSlots_eq]
  | mouseMove dx dy => exact .inr (.inr (.inr (.inr ⟨.mouse 0 dx dy 0, rfl⟩)))
  | mouseBtn m => exact .inr (.inr (.inr (.inr ⟨.mouse m 0 0 0, rfl⟩)))
  | nl => exact .inr (.inr (.inr (.inr ⟨.dropTag Config.TERM [], rfl⟩)))

/-- The empty buffer has the form of INV5 and INV6. -/
theorem memory_wf_nil : Memory.wf [] = true := rfl

theorem memory_wf_iff (m : Memory) : Memory.wf m = true ↔ m.length < Config.RX_MAX ∧ ∀ b ∈ m, b ≠ Config.TERM := by
  simp [Memory.wf]

/-- Storing a byte that does not close the chunk keeps the form. -/
theorem memPush_wf {b : Byte} {s : State} (hs : RxInv s) (h : ¬ closes b s) : RxInv (s.memPush b) := by
  rw [RxInv, memory_wf_iff] at *
  simp only [closes, not_or, State.rxlen] at h
  obtain ⟨hl, ht⟩ := hs
  refine ⟨?_, ?_⟩
  · have h2 := h.2
    simp only [State.memPush_rxbuf, List.length_append, List.length_cons, List.length_nil] at *
    omega
  · intro c hc
    rw [State.memPush_rxbuf, List.mem_append] at hc
    rcases hc with hc | hc
    · exact ht c hc
    · rw [List.mem_singleton.mp hc]; exact h.1

theorem memClear_wf (s : State) : RxInv s.memClear := rfl

theorem chunkEffect_rxbuf (c : Classified) (s : State) : (chunkEffect c s).rxbuf = chunkRxbuf c s := by rw [chunkEffect_eq]

/-- A chunk leaves RXBUF as it was, or empty. -/
theorem chunkRxbuf_cases (c : Classified) (s : State) : chunkRxbuf c s = s.rxbuf ∨ chunkRxbuf c s = [] := by
  cases c <;> first | exact .inl rfl | exact .inr rfl

/-- With an empty buffer, as after a chunk close, RXBUF is empty after any chunk (R106). -/
@[simp] theorem chunkRxbuf_memClear (c : Classified) (s : State) : chunkRxbuf c s.memClear = [] := by cases c <;> rfl

/-- A chunk keeps the form of the receive buffer. -/
theorem chunkEffect_wf (c : Classified) {s : State} (hs : RxInv s) : RxInv (chunkEffect c s) := by
  rw [RxInv, chunkEffect_rxbuf]
  rcases chunkRxbuf_cases c s with h | h <;> rw [h]
  · exact hs
  · rfl

/-- Every instruction keeps the form of the receive buffer. -/
theorem exec_keeps_rxInv {i : Instr} {s t : State} (hs : RxInv s) (h : exec i s = .next t) : RxInv t := by
  rcases exec_cases i s with ⟨b, -, hb, e⟩ | ⟨b, -, -, e⟩ | ⟨-, e⟩ | ⟨-, e⟩ | ⟨c, e⟩ <;>
    rw [e] at h <;> cases h
  · exact memPush_wf hs hb
  · exact chunkEffect_wf _ (memClear_wf s)
  · rfl
  · rfl
  · exact chunkEffect_wf _ hs

end Sys2Proof.Machine
end

