-- ==== Sys2Proof/Laws/PerInstr.lean ====
section
/-! SUPPORT. The family RoundTrip: decoding what the encoder writes gives the instruction back, a pseudo-form's as its
expansion (R81). One lemma per constructor. -/

namespace Sys2Proof.Laws.RoundTrip

/-- The family's statement about the instruction `i`. -/
def Statement (i : Instr) : Prop := i.wf = true → decode (encode i) = .run i.expand

theorem kbd (mod k0 k1 k2 k3 k4 k5 : Byte) : Statement (.kbd mod k0 k1 k2 k3 k4 k5) := fun _ => rfl

theorem mouse (buttons dx dy wheel : Byte) : Statement (.mouse buttons dx dy wheel) := fun _ => by
  rw [show encode (.mouse buttons dx dy wheel) = .frame [Config.MOUSE_TAG, buttons, dx, dy, wheel, Config.TERM] from rfl,
    decode, decodeChunk_of_length (Nat.le_of_ble_eq_true rfl), classify_mouse]
  rfl

theorem dropLenK (rest : List Byte) : Statement (.dropLenK rest) := fun h => by
  simp only [Instr.wf, Bool.and_eq_true, decide_eq_true_eq] at h
  rw [show encode (.dropLenK rest) = .frame (Config.KBD_TAG :: rest) from rfl, decode,
    decodeChunk_of_length (by simpa using h.2), classify_dropLenK h.1]
  rfl

theorem dropLenM (rest : List Byte) : Statement (.dropLenM rest) := fun h => by
  simp only [Instr.wf, Bool.and_eq_true, decide_eq_true_eq] at h
  rw [show encode (.dropLenM rest) = .frame (Config.MOUSE_TAG :: rest) from rfl, decode,
    decodeChunk_of_length (by simpa using h.2), classify_dropLenM h.1]
  rfl

theorem dropTag (tag : Byte) (rest : List Byte) : Statement (.dropTag tag rest) := fun h => by
  simp only [Instr.wf, Bool.and_eq_true, decide_eq_true_eq] at h
  rw [show encode (.dropTag tag rest) = .frame (tag :: rest) from rfl, decode,
    decodeChunk_of_length (by simpa using h.2), classify_dropTag h.1.1 h.1.2]
  rfl

theorem dropEmpty : Statement .dropEmpty := fun _ => rfl

theorem rxbyte (b : Byte) : Statement (.rxbyte b) := fun _ => rfl

theorem timeout : Statement .timeout := fun _ => rfl

theorem reset : Statement .reset := fun _ => rfl

theorem kbdIdle : Statement .kbdIdle := fun _ => rfl

theorem kbdKeys (mod : Byte) (codes : List Byte) : Statement (.kbdKeys mod codes) := fun _ => by
  rw [show encode (.kbdKeys mod codes) = .frame (Config.KBD_TAG :: mod :: (padSlots codes ++ [Config.TERM])) from rfl,
    padSlots_eq codes]
  rfl

theorem mouseMove (dx dy : Byte) : Statement (.mouseMove dx dy) := fun _ => by
  rw [show encode (.mouseMove dx dy) = .frame [Config.MOUSE_TAG, 0, dx, dy, 0, Config.TERM] from rfl, decode,
    decodeChunk_of_length (Nat.le_of_ble_eq_true rfl), classify_mouse]
  rfl

theorem mouseBtn (m : Byte) : Statement (.mouseBtn m) := fun _ => by
  rw [show encode (.mouseBtn m) = .frame [Config.MOUSE_TAG, m, 0, 0, 0, Config.TERM] from rfl, decode,
    decodeChunk_of_length (Nat.le_of_ble_eq_true rfl), classify_mouse]
  rfl

theorem nl : Statement .nl := fun _ => by
  rw [show encode .nl = .frame [Config.TERM] from rfl, decode, decodeChunk_of_length (by simp),
    classify_dropTag (by decide) (by decide)]
  rfl

end Sys2Proof.Laws.RoundTrip
end

