-- ==== Sys2Proof/Laws/Step.lean ====
section
/-! SUPPORT. What a step can do. -/

namespace Sys2Proof.Machine

/-- The three kinds of step. -/
theorem stepWithPins_cases (s : State) :
    (s.pins.reset = true ∧ stepWithPins s = .next s.toReset) ∨
    (s.pins.reset = false ∧ s.applying = true ∧ stepWithPins s = .next s.applyPart) ∨
    (s.pins.reset = false ∧ s.applying = false ∧ s.inbox = [] ∧ stepWithPins s = .next s) ∨
    (∃ x rest, s.pins.reset = false ∧ s.applying = false ∧ s.inbox = x :: rest ∧
      stepWithPins s = acceptInput x { s with inbox := rest }) := by
  unfold stepWithPins
  cases hr : s.pins.reset with
  | true => exact .inl ⟨rfl, rfl⟩
  | false =>
    cases ha : s.applying with
    | true => exact .inr (.inl ⟨rfl, rfl, rfl⟩)
    | false =>
      cases hi : s.inbox with
      | nil => exact .inr (.inr (.inl ⟨rfl, rfl, rfl, by simp [acceptNext, hi]⟩))
      | cons x rest => exact .inr (.inr (.inr ⟨x, rest, rfl, rfl, rfl, by simp [acceptNext, hi]⟩))

/-- What accepting an input can do: run one instruction, nothing, or refuse a chunk that is too long. -/
theorem acceptInput_cases (x : Input) (s : State) :
    (∃ i t, decode x = .run i ∧ exec i (s.beginInput x) = .next t ∧ acceptInput x s = .next t) ∨
    (x = .noFrame ∧ acceptInput x s = .next s) ∨
    (∃ f, x = .frame f ∧ Config.RX_MAX < f.length ∧ acceptInput x s = .refused (.undecodable .chunkTooLong)) := by
  have key : ∀ i, decode x = .run i → ∃ i t, decode x = .run i ∧ exec i (s.beginInput x) = .next t ∧ acceptInput x s = .next t := by
    intro i hd
    have ha : acceptInput x s = exec i (s.beginInput x) := by simp [acceptInput, hd]
    rcases exec_cases i (s.beginInput x) with ⟨_, -, -, e⟩ | ⟨_, -, -, e⟩ | ⟨-, e⟩ | ⟨-, e⟩ | ⟨_, e⟩ <;>
      exact ⟨i, _, hd, e, ha.trans e⟩
  cases x with
  | rxbyte b => exact .inl (key _ rfl)
  | timeout => exact .inl (key _ rfl)
  | reset => exact .inl (key _ rfl)
  | noFrame => exact .inr (.inl ⟨rfl, rfl⟩)
  | frame f =>
    by_cases h : f.length ≤ Config.RX_MAX
    · exact .inl (key _ (decodeChunk_of_length h))
    · refine .inr (.inr ⟨f, rfl, by omega, ?_⟩)
      simp [acceptInput, decode, decodeChunk_too_long (show Config.RX_MAX < f.length by omega)]

/-- A port event or RESET always has its reaction. -/
theorem acceptInput_next {x : Input} (hx : ∀ f, x ≠ .frame f) (s : State) : ∃ t, acceptInput x s = .next t := by
  rcases acceptInput_cases x s with ⟨_, t, -, -, h⟩ | ⟨-, h⟩ | ⟨f, h, -⟩
  · exact ⟨t, h⟩
  · exact ⟨s, h⟩
  · exact absurd h (hx f)

/-- An invariant of the machine: kept by a change of the input levels or of the inbox, by every instruction and by the command
port, so by every step. -/
theorem step_keeps {P : State → Prop}
    (hpins : ∀ s : State, P s → P s.takePins)
    (hinbox : ∀ (s : State) (xs : List Input), P s → P { s with inbox := xs })
    (hbegin : ∀ (s : State) (x : Input), P s → P (s.beginInput x))
    (hport : ∀ s : State, P s → P s.applyPart)
    (hexec : ∀ (i : Instr) (s t : State), P s → exec i s = .next t → P t)
    {s t : State} (hs : P s) (h : step s = .next t) : P t := by
  have hp := hpins s hs
  have h : stepWithPins s.takePins = .next t := h
  rcases stepWithPins_cases s.takePins with ⟨_, e⟩ | ⟨_, _, e⟩ | ⟨_, _, _, e⟩ | ⟨x, rest, _, _, _, e⟩ <;> rw [e] at h
  · cases h; exact hexec .reset _ _ hp rfl
  · cases h; exact hport _ hp
  · cases h; exact hp
  · have hi := hinbox _ rest hp
    rcases acceptInput_cases x { s.takePins with inbox := rest } with ⟨i, u, -, e, ha⟩ | ⟨-, ha⟩ | ⟨_, -, -, ha⟩ <;>
      rw [ha] at h <;> cases h
    · exact hexec i _ _ (hbegin _ x hi) e
    · exact hi

/-- A presented command drives `cmd_valid` and its lines (R48). -/
@[simp] theorem cmdValid_present (s : State) (c : Command) (rest : List Command) : (s.present c rest).cmdValid = true := rfl
@[simp] theorem cmdLines_present (s : State) (c : Command) (rest : List Command) :
    (s.present c rest).cmdLines = some c.lines := rfl

/-- After its completion nothing is driven. -/
@[simp] theorem cmdValid_complete (s : State) : s.complete.cmdValid = false := rfl
@[simp] theorem cmdLines_complete (s : State) : s.complete.cmdLines = none := rfl

/-- What the command port does in a step inside the apply part: it waits, completes the presented command, or presents the next. -/
theorem applyPart_cases {s : State} (h : s.applying = true) :
    (∃ c, s.port = some c ∧ s.pins.cmdReady = false ∧ s.applyPart = s) ∨
    (∃ c, s.port = some c ∧ s.pins.cmdReady = true ∧ s.applyPart = s.complete) ∨
    (∃ c rest, s.port = none ∧ s.cmdq = c :: rest ∧ s.applyPart = s.present c rest) := by
  cases hp : s.port with
  | some c =>
    cases hr : s.pins.cmdReady with
    | false => exact .inl ⟨c, rfl, rfl, by simp [State.applyPart, hp, hr]⟩
    | true => exact .inr (.inl ⟨c, rfl, rfl, by simp [State.applyPart, hp, hr]⟩)
  | none =>
    cases hq : s.cmdq with
    | nil => simp [State.applying, hp, hq] at h
    | cons c rest => exact .inr (.inr ⟨c, rest, rfl, rfl, by simp [State.applyPart, hp, hq]⟩)

/-- Outside the apply part the command port does nothing. -/
theorem applyPart_of_not_applying {s : State} (h : s.applying = false) : s.applyPart = s := by
  simp only [State.applying, Bool.or_eq_false_iff, Option.isSome_eq_false_iff, Option.isNone_iff_eq_none,
    Bool.not_eq_false', List.isEmpty_iff] at h
  simp [State.applyPart, h.1, h.2]

/-- What the command port does leaves the core's own registers and buffer alone. -/
theorem applyPart_core (s : State) :
    s.applyPart.aks = s.aks ∧ s.applyPart.abm = s.abm ∧ s.applyPart.rxbuf = s.rxbuf ∧ s.applyPart.inbox = s.inbox ∧
      s.applyPart.pins = s.pins ∧ s.applyPart.pinTrace = s.pinTrace := by
  cases h : s.applying with
  | false => rw [applyPart_of_not_applying h]; exact ⟨rfl, rfl, rfl, rfl, rfl, rfl⟩
  | true =>
    rcases applyPart_cases h with ⟨_, -, -, e⟩ | ⟨_, -, -, e⟩ | ⟨_, _, -, -, e⟩ <;> rw [e] <;>
      exact ⟨rfl, rfl, rfl, rfl, rfl, rfl⟩

/-- What the command port emits it takes from the commands to come, in order. -/
theorem applyPart_commands (s : State) : s.applyPart.hidOut ++ s.applyPart.cmdq = s.hidOut ++ s.cmdq := by
  cases h : s.applying with
  | false => rw [applyPart_of_not_applying h]
  | true =>
    rcases applyPart_cases h with ⟨_, -, -, e⟩ | ⟨_, -, -, e⟩ | ⟨_, _, -, hq, e⟩ <;> rw [e]
    · rfl
    · simp [hq]

/-- Emitting early or late, the commands leave the HID layer in the same state. -/
theorem applyPart_actAll (s : State) : s.applyPart.hid.actAll s.applyPart.cmdq = s.hid.actAll s.cmdq := by
  cases h : s.applying with
  | false => rw [applyPart_of_not_applying h]
  | true =>
    rcases applyPart_cases h with ⟨_, -, -, e⟩ | ⟨_, -, -, e⟩ | ⟨_, _, -, hq, e⟩ <;> rw [e]
    · rfl
    · simp [hq, HidShadow.actAll]

/-- No instruction takes or adds an input. -/
theorem exec_inbox {i : Instr} {s t : State} (h : exec i s = .next t) : t.inbox = s.inbox := by
  rcases exec_cases i s with ⟨b, -, hb, e⟩ | ⟨b, -, -, e⟩ | ⟨-, e⟩ | ⟨-, e⟩ | ⟨c, e⟩ <;>
    rw [e] at h <;> cases h <;> simp [chunkEffect_eq]

/-- No instruction changes the input levels or the schedule. -/
theorem exec_pins {i : Instr} {s t : State} (h : exec i s = .next t) : t.pins = s.pins ∧ t.pinTrace = s.pinTrace := by
  rcases exec_cases i s with ⟨b, -, hb, e⟩ | ⟨b, -, -, e⟩ | ⟨-, e⟩ | ⟨-, e⟩ | ⟨c, e⟩ <;>
    rw [e] at h <;> cases h <;> simp [chunkEffect_eq]

end Sys2Proof.Machine
end

