-- ==== Sys2Proof/Laws/React.lean ====
section
/-! SUPPORT. The whole reaction to an input, sequences of inputs, and runs. -/

namespace Sys2Proof.Machine

theorem applying_eq_false_iff (s : State) : s.applying = false ↔ s.port = none ∧ s.cmdq = [] := by
  simp [State.applying]

/-- With nothing to emit there is nothing to flush. -/
theorem flush_eq_self {s : State} (h : s.applying = false) : s.flush = s := by
  obtain ⟨h1, h2⟩ := (applying_eq_false_iff s).mp h
  cases s
  simp_all [State.flush, HidShadow.actAll]

@[simp] theorem flush_flush (s : State) : s.flush.flush = s.flush := by simp [State.flush, HidShadow.actAll]

@[simp] theorem flush_applying (s : State) : s.flush.applying = false := rfl

/-- A step of the command port does not change what the port does in the end. -/
theorem flush_applyPart (s : State) : s.applyPart.flush = s.flush := by
  have h1 := applyPart_commands s
  have h2 := applyPart_actAll s
  obtain ⟨a, b, c, d, e, f⟩ := applyPart_core s
  simp only [State.flush, h1, h2, a, b, c, d, e, f]

/-- The effect of a chunk does not depend on what is still to be emitted before it. -/
theorem chunkEffect_flush (c : Classified) (s : State) : (chunkEffect c s.flush).flush = (chunkEffect c s).flush := by
  have h1 : chunkCommands c s.flush = chunkCommands c s := by cases c <;> rfl
  have h2 : chunkAks c s.flush = chunkAks c s := by cases c <;> rfl
  have h3 : chunkAbm c s.flush = chunkAbm c s := by cases c <;> rfl
  have h4 : chunkRxbuf c s.flush = chunkRxbuf c s := by cases c <;> rfl
  rw [chunkEffect_eq, chunkEffect_eq, h1, h2, h3, h4]
  simp [State.flush, actAll_append]

theorem react_frame {f : List Byte} (s : State) (h : f.length ≤ Config.RX_MAX) :
    react (.frame f) s = .next (chunkEffect (classify f) s.memClear).flush := by
  have : acceptInput (.frame f) s = .next (chunkEffect (classify f) s.memClear) := by
    simp only [acceptInput, decode, decodeChunk_of_length h, exec_toInstr, State.beginInput_frame]
  simp [react, this]

theorem react_rxbyte_of_not_closes {b : Byte} {s : State} (h : ¬ closes b s) :
    react (.rxbyte b) s = .next (s.memPush b).flush := by
  have : acceptInput (.rxbyte b) s = .next (s.memPush b) := execRxbyte_of_not_closes h
  simp [react, this]

theorem react_rxbyte_of_closes {b : Byte} {s : State} (h : closes b s) :
    react (.rxbyte b) s = .next (chunkEffect (classify (s.rxbuf ++ [b])) s.memClear).flush := by
  have : acceptInput (.rxbyte b) s = .next (chunkEffect (classify (s.rxbuf ++ [b])) s.memClear) := execRxbyte_of_closes h
  simp [react, this]

theorem react_timeout (s : State) : react .timeout s = .next s.memClear.flush := rfl

theorem react_noFrame (s : State) : react .noFrame s = .next s.flush := rfl

theorem reactAll_append (xs ys : List Input) (s : State) :
    reactAll (xs ++ ys) s =
      match reactAll xs s with
      | .next t => reactAll ys t
      | .fault r => .fault r
      | .refused r => .refused r := by
  induction xs generalizing s with
  | nil => rfl
  | cons x xs ih =>
    simp only [List.cons_append, reactAll]
    cases react x s <;> simp [ih]

/-- Bytes that close no chunk pile up in the buffer. -/
theorem reactAll_overPort_stores (g : List Byte) (s : State) (hg : ∀ b ∈ g, b ≠ Config.TERM)
    (hl : s.rxbuf.length + g.length < Config.RX_MAX) (ha : s.applying = false) :
    reactAll (overPort g) s = .next { s with rxbuf := s.rxbuf ++ g } := by
  induction g generalizing s with
  | nil => simp [overPort, reactAll]
  | cons b g ih =>
    have hc : ¬ closes b s := by
      simp only [closes, State.rxlen, not_or]
      refine ⟨hg b (by simp), ?_⟩
      simp only [List.length_cons] at hl
      omega
    have hp : (s.memPush b).flush = s.memPush b := flush_eq_self ha
    show reactAll (.rxbyte b :: overPort g) s = _
    simp only [reactAll, react_rxbyte_of_not_closes hc, hp]
    rw [ih (s.memPush b) (fun c hc => hg c (by simp [hc]))
      (by simp only [State.memPush_rxbuf, List.length_append, List.length_cons, List.length_nil] at *; omega) ha]
    simp [State.memPush]

theorem run_zero (s : State) : run 0 s = .next s := rfl

theorem run_succ {s t : State} (n : Nat) (h : step s = .next t) : run (n + 1) s = run n t := by
  have h' : Sys2Proof.core.step s = .next t := h
  simp only [run, Host.Core.run, h']
  rfl

end Sys2Proof.Machine
end

