-- ==== Sys2Proof/Tests/Slice0.lean ====
section
/-! SUPPORT. Tests on fixed values. Every expected value is from spec/ (95_test_vectors.md by its vector's name, or the rule's own
example), none from the model. -/

namespace Sys2Proof.Tests

open Sys2Proof.Machine

/-- The reset state with the given AKS, ABM and receive buffer. -/
def st (keys : List Byte) (abm : Byte) (buf : List Byte) : State :=
  { State.reset with aks := KeySet.ofList keys, abm := abm, rxbuf := buf }

/-- The next state of an outcome, read through `f`. -/
def after {α : Type} (o : Host.Outcome State Fault Refusal) (f : State → α) : Option α :=
  match o with
  | .next t => some (f t)
  | .fault _ => none
  | .refused _ => none

/-- AKS, ABM and RXLEN, and the commands to emit. -/
def view (s : State) : List Byte × Byte × Nat × List Command := (KeySet.asc s.getAks, s.getAbm, s.rxlen, s.cmdq)

/-! ### Ill-formed terms are refused (table, R76, R81) -/

theorem test_wf_dropLenK_of_nine_bytes : (Instr.dropLenK (List.replicate 8 0)).wf = false := by decide

theorem test_wf_dropLenK_too_long : (Instr.dropLenK (List.replicate 32 0)).wf = false := by decide

theorem test_wf_dropLenM_of_six_bytes : (Instr.dropLenM (List.replicate 5 0)).wf = false := by decide

theorem test_wf_dropLenM_too_long : (Instr.dropLenM (List.replicate 32 0)).wf = false := by decide

theorem test_wf_dropTag_keyboard_tag : (Instr.dropTag 0x10 []).wf = false := by decide

theorem test_wf_dropTag_mouse_tag : (Instr.dropTag 0x20 [1]).wf = false := by decide

theorem test_wf_dropTag_too_long : (Instr.dropTag 0x55 (List.replicate 32 0)).wf = false := by decide

theorem test_wf_kbdKeys_no_code : (Instr.kbdKeys 1 []).wf = false := by decide

theorem test_wf_kbdKeys_seven_codes : (Instr.kbdKeys 1 [1, 2, 3, 4, 5, 6, 7]).wf = false := by decide

/-! ### Decoding words written out from the spec's encodings -/

/-- S3, with the table's numbering: byte 0 is bits 7..0. -/
theorem test_decode_kbd : decodeTableWord 72 0x0A0000000000040310 = some (.kbd 0x03 0x04 0 0 0 0 0) := by decide

/-- Every field in its own place (R71). -/
theorem test_decode_kbd_fields : decode (.frame [0x10, 1, 2, 3, 4, 5, 6, 7, 0x0A]) = .run (.kbd 1 2 3 4 5 6 7) := by decide

/-- S5. -/
theorem test_decode_mouse : decodeTableWord 48 0x0A0002FE0020 = some (.mouse 0 0xFE 0x02 0) := by decide

/-- M8: every field in its own place (R72). -/
theorem test_decode_mouse_fields : decode (.frame [0x20, 0x01, 0xF6, 0x0B, 0x81, 0x0A]) = .run (.mouse 0x01 0xF6 0x0B 0x81) := by
  decide

/-- S7: tag 0x10 and length 5. -/
theorem test_decode_dropLenK : decode (.frame [0x10, 0, 4, 0, 0x0A]) = .run (.dropLenK [0, 4, 0, 0x0A]) := by decide

/-- F5a: the keyboard tag with the mouse length. -/
theorem test_decode_dropLenK_six : decode (.frame [0x10, 0, 0, 0, 0, 0x0A]) = .run (.dropLenK [0, 0, 0, 0, 0x0A]) := by decide

/-- F5b: the mouse tag with the keyboard length. -/
theorem test_decode_dropLenM : decode (.frame [0x20, 0, 0, 0, 0, 0, 0, 0, 0x0A]) = .run (.dropLenM [0, 0, 0, 0, 0, 0, 0, 0x0A]) := by
  decide

/-- F7b: all 8 bits of the tag count. -/
theorem test_decode_dropTag : decode (.frame [0x90, 0, 4, 0, 0, 0, 0, 0, 0x0A]) = .run (.dropTag 0x90 [0, 4, 0, 0, 0, 0, 0, 0x0A]) := by
  decide

/-- L1. -/
theorem test_decode_dropEmpty : decode (.frame []) = .run .dropEmpty := by decide

/-- NL is the chunk of the terminator alone, dropped for its tag (F2). -/
theorem test_decode_nl : decodeTableWord 8 0x0A = some (.dropTag 0x0A []) := by decide

/-- L2: the last byte is not inspected. -/
theorem test_decode_last_byte : decode (.frame [0x10, 0, 4, 0, 0, 0, 0, 0, 0xFF]) = .run (.kbd 0 4 0 0 0 0 0) := by decide

/-- KBD.IDLE's bits in the table are KBD with every operand 0. -/
theorem test_decode_kbdIdle : decodeTableWord 72 0x0A0000000000000010 = some (.kbd 0 0 0 0 0 0 0) := by decide

/-- KBD.KEYS 0x02, 0x04 of P1. -/
theorem test_encode_kbdKeys : frameBytes (.kbdKeys 0x02 [0x04]) = some [0x10, 0x02, 0x04, 0, 0, 0, 0, 0, 0x0A] := by decide

/-- MOUSE.MOVE and MOUSE.BTN (R81). -/
theorem test_encode_mouse_forms :
    frameBytes (.mouseMove 5 0xFD) = some [0x20, 0, 5, 0xFD, 0, 0x0A] ∧ frameBytes (.mouseBtn 3) = some [0x20, 3, 0, 0, 0, 0x0A] := by
  decide

/-- The events as the lines of the receive port and the reset input (R41, R200). -/
theorem test_decode_events :
    ({ reset := false, valid := true, data := some 0x10, timeout := false } : RxLines).event? = some (.rxbyte 0x10) ∧
    ({ reset := false, valid := false, data := none, timeout := true } : RxLines).event? = some .timeout ∧
    ({ reset := true, valid := true, data := some 0x10, timeout := false } : RxLines).event? = some .reset := by decide

/-- MOUSE.MOVE 5, -3 and MOUSE.BTN 3 as table words are MOUSE with the other operands 0. -/
theorem test_decode_mouse_forms : decodeTableWord 48 0x0A00FD050020 = some (.mouse 0 5 0xFD 0) ∧
    decodeTableWord 48 0x0A0000000320 = some (.mouse 3 0 0 0) := by decide

/-- KBD.KEYS 0x02, 0x04 as a table word. -/
theorem test_decode_kbdKeys : decodeTableWord 72 0x0A0000000000040210 = some (.kbd 2 4 0 0 0 0 0) := by decide

theorem test_decode_too_long : decode (.frame (List.replicate 33 0x55)) = .reject .chunkTooLong := by decide

/-! ### Keyboard -/

/-- R25, the whole table. -/
theorem test_modtab : (List.finRange 8).map modTab = [0xE0, 0xE1, 0xE2, 0xE3, 0xE4, 0xE5, 0xE6, 0xE7] := by decide

/-- `mod = A5` gives `{E0, E2, E5, E7}` (95, 2.2). -/
theorem test_modifiers : KeySet.asc (modifierSet 0xA5) = [0xE0, 0xE2, 0xE5, 0xE7] := by decide

/-- S4. -/
theorem test_kbd_transition : after (exec (.kbd 0 5 6 0 0 0 0) (st [4, 5] 1 [7])) view =
    some ([5, 6], 1, 1, [.kbdRelease 4, .kbdPress (KeySet.ofList [5, 6])]) := by decide

/-- K12: a modifier kept by a slot. -/
theorem test_kbd_modifier_in_slot : after (exec (.kbd 2 0xE0 0 0 0 0 0) (st [0x04, 0xE0, 0xE1] 0 [])) view =
    some ([0xE0, 0xE1], 0, 0, [.kbdRelease 4, .kbdPress (KeySet.ofList [0xE0, 0xE1])]) := by decide

/-- S1. -/
theorem test_kbdIdle : after (exec .kbdIdle (st [0x04, 0xE1] 0 [])) view =
    some ([], 0, 0, [.kbdRelease 0x04, .kbdRelease 0xE1, .kbdReleaseAll, .kbdPress KeySet.empty]) := by decide

/-- S2 as KBD.KEYS 0, 4, 4: duplicates collapse. -/
theorem test_kbdKeys : after (exec (.kbdKeys 0 [4, 4]) (st [] 0 [])) view =
    some ([4], 0, 0, [.kbdPress (KeySet.ofList [4])]) := by decide

/-! ### Mouse -/

/-- R9's values. -/
theorem test_sext8 : [0x00, 0x7F, 0x80, 0xFF, 0xFE].map sext8 = [0, 127, -128, -1, -2] := by decide

/-- M8. -/
theorem test_mouse : after (exec (.mouse 0x01 0xF6 0x0B 0x81) (st [4] 0 [])) view =
    some ([4], 1, 0, [.mouseMove (-10) 11 (-127), .mousePress 1]) := by decide

/-- M6: the preserved defect, no release. -/
theorem test_mouse_defect : after (exec (.mouse 1 0 0 0) (st [] 3 [])) view =
    some ([], 1, 0, [.mouseMove 0 0 0, .mousePress 1]) := by decide

/-- S6, 1 to 0, as MOUSE.MOVE. -/
theorem test_mouseMove : after (exec (.mouseMove 5 0xFB) (st [] 1 [])) view =
    some ([], 0, 0, [.mouseMove 5 (-5) 0, .mouseReleaseAll]) := by decide

/-- S6, 1 to 1. -/
theorem test_mouseBtn : after (exec (.mouseBtn 1) (st [] 1 [])) view = some ([], 1, 0, [.mouseMove 0 0 0]) := by decide

/-! ### Frame Reader, drops, RESET -/

/-- R100's example. -/
theorem test_rxbyte_stores : after (exec (.rxbyte 0x10) (st [] 0 [])) (·.rxbuf) = some [0x10] := by decide

/-- R101's example: the terminator closes a keyboard frame. -/
theorem test_rxbyte_closes : after (exec (.rxbyte 0x0A) (st [] 0 [0x10, 0, 4, 0, 0, 0, 0, 0])) view =
    some ([4], 0, 0, [.kbdPress (KeySet.ofList [4])]) := by decide

/-- F3: the 32nd byte closes. -/
theorem test_rxbyte_cut : after (exec (.rxbyte 0x55) (st [4] 1 (List.replicate 31 0x55))) view = some ([4], 1, 0, []) := by decide

/-- R102's example. -/
theorem test_timeout : after (exec .timeout (st [4] 1 [0x20, 1, 0, 0, 0])) view = some ([4], 1, 0, []) := by decide

/-- X1. -/
theorem test_reset : after (exec .reset (st [4] 1 [1, 2, 3])) view = some ([], 0, 0, []) := by decide

/-- S7, F5b, F7, L1, F2: the drops; with bytes in RXBUF, RXLEN is 0 afterwards (R183). -/
theorem test_drops :
    [Instr.dropLenK [0, 4, 0, 0x0A], .dropLenM [0, 0, 0, 0, 0, 0, 0, 0x0A], .dropTag 0x11 [0x0A], .dropEmpty, .nl].map
      (fun i => after (exec i (st [4] 1 [0x10, 0])) view) = List.replicate 5 (some ([4], 1, 0, [])) := by decide

/-- R106: after a whole chunk that is accepted, RXLEN is 0 too. -/
theorem test_chunk_level_rxlen : after (acceptInput (.frame [0x20, 1, 0, 0, 0, 0x0A]) (st [4] 0 [0x10, 0])) view =
    some ([4], 1, 0, [.mouseMove 0 0 0, .mousePress 1]) := by decide

/-- The labels of R181, by number. -/
theorem test_labels :
    [Instr.dropEmpty, .dropTag 0x11 [], .dropLenK [], .timeout].map (fun i => (dropLabel i (st [] 0 [1])).map DropCause.number) =
      [some 1, some 2, some 3, some 4] := by decide

/-! ### Ports, HID layer, step -/

/-- R48. -/
theorem test_lines : (Command.mouseMove (-2) 2 0).lines = { op := 0b101, keys := none, a := some 0xFE, b := some 2, c := some 0 } := by
  decide

/-- R48: with `cmd_ready` high, too, a command is presented with its lines, and only a later step completes it. -/
theorem test_present : after (step { st [] 0 [] with cmdq := [.mousePress 1] }) (fun t => (t.cmdValid, t.cmdLines)) =
    some (true, some { op := 0b110, keys := none, a := some 1, b := none, c := none }) := by decide

/-- R48: `cmd_ready` completes the command on the port. -/
theorem test_complete : after (step { st [] 0 [] with port := some (.mousePress 1), cmdq := [.mouseReleaseAll] })
    (fun t => (t.cmdValid, t.cmdq)) = some (false, [.mouseReleaseAll]) := by decide

/-- E2. -/
theorem test_hid_keys : (HidShadow.actAll { keys := KeySet.ofList [4, 0xE1], buttons := 0, reading := .orInto }
    [.kbdRelease 4, .kbdRelease 0xE1, .kbdReleaseAll, .kbdPress KeySet.empty]).keys = KeySet.empty := by decide

/-- E4: the OR reading. -/
theorem test_hid_buttons : (HidShadow.actAll { keys := KeySet.empty, buttons := 0, reading := .orInto }
    [.mousePress 3, .mousePress 1]).buttons = 3 := by decide

/-- The next step after reset runs a table word. -/
theorem test_fetch : after (step (State.reset.withFetchWord 48 0x0A0002FE0020)) (·.cmdq) = some [.mouseMove (-2) 2 0] := by decide

/-- A table row of which only the tag is given: zeros up to the frame's length (log 17). -/
theorem test_fetch_tag_only : after (step (State.reset.withFetchWord 8 0x10)) (·.cmdq) = some [.kbdReleaseAll, .kbdPress KeySet.empty] := by
  decide

/-- A state in the middle of a mouse frame: the move is out, the press is to come, and the reset input is high. -/
def midStep : State :=
  { st [4] 1 [] with
    cmdq := [.mousePress 1]
    hidOut := [.mouseMove 0 0 0]
    pins := { reset := true, cmdReady := true } }

/-- RESET inside a step (R201): what is not emitted never is, what is emitted stays. -/
theorem test_reset_in_step : after (step midStep) (fun t => (view t, t.hidOut)) =
    some (([], 0, 0, []), [.mouseMove 0 0 0]) := by decide

/-! ### Witnesses: each statement's hypotheses are met together, at the edges of its ranges -/

/-- 31 bytes of noise. -/
def noise31 : List Byte := List.replicate 31 0x55

theorem witness_DecodeOfEncode : (Instr.dropLenK (List.replicate 31 0)).wf = true ∧ (Instr.kbdKeys 1 [1, 2, 3, 4, 5, 6]).wf = true := by
  decide

theorem witness_EncodeOfDecode : (List.replicate 32 (0 : Byte)).length ≤ 32 ∧ ([] : List Byte).length ≤ 32 := by decide

/-- One chunk for each row, at the lengths where rows meet. -/
theorem witness_DispatchTable :
    (List.replicate 8 (0 : Byte)).length + 1 = 9 ∧ (List.replicate 7 (0 : Byte)).length + 1 ≠ 9 ∧
    (List.replicate 5 (0 : Byte)).length + 1 = 6 ∧ (List.replicate 8 (0 : Byte)).length + 1 ≠ 6 ∧
    (List.replicate 31 (0 : Byte)).length + 1 ≤ 32 ∧ (0x11 : Byte) ≠ 0x10#8 ∧ (0x11 : Byte) ≠ 0x20#8 := by decide

theorem witness_UnknownOrMisfitChunkIsDropped : ([0, 0, 0, 0, 0x0A] : List Byte).length + 1 ≤ 32 ∧
    ¬((0x10 : Byte) = 0x10#8 ∧ ([0, 0, 0, 0, 0x0A] : List Byte).length + 1 = 9) ∧
    ¬((0x10 : Byte) = 0x20#8 ∧ ([0, 0, 0, 0, 0x0A] : List Byte).length + 1 = 6) := by decide

theorem witness_ChunkLevelEntry : (List.replicate 32 (0 : Byte)).length ≤ 32 ∧ 32 < (List.replicate 33 (0 : Byte)).length := by decide

theorem witness_CommandLinesRoundTrip : (Command.mouseMove (-128) 127 (-1)).legal ∧ (Command.kbdRelease 0xFF).legal ∧
    (Command.mousePress 0x80).legal ∧ (Command.kbdPress (KeySet.ofList [4, 5, 6, 7, 8, 9, 0xE0, 0xE1, 0xE2, 0xE3, 0xE4, 0xE5, 0xE6, 0xE7])).legal := by
  unfold Command.legal isSigned8; decide

theorem witness_EventLinesRoundTrip : inputLines (.rxbyte 0xFF) = some { reset := false, valid := true, data := some 0xFF, timeout := false } ∧
    ({ reset := false, valid := true, data := none, timeout := true } : RxLines).event? = none := by decide

theorem witness_RxbyteStoresOneByte : (0x55 : Byte) ≠ 0x0A#8 ∧ (st [] 0 (List.replicate 30 0x55)).rxlen + 1 ≠ 32 := by decide

theorem witness_RxbyteClosesChunk : ((0x0A : Byte) = 0x0A#8) ∧ (st [] 0 noise31).rxlen + 1 = 32 := by decide

theorem witness_LabelledDropsEmitNothing : dropLabel .timeout (st [4] 1 [0x10]) ≠ none ∧ dropLabel (.rxbyte 0x55) (st [] 0 noise31) ≠ none ∧
    dropLabel .dropEmpty (st [4] 1 [0x10]) ≠ none := by decide

theorem witness_DropLabelPriority : (classify []).cause = some .empty ∧ (classify [0x11]).cause = some .tag ∧
    (classify [0x10, 0, 0, 0, 0, 0x0A]).cause = some .len ∧ (classify [0x20, 0, 0, 0, 0, 0, 0, 0, 0x0A]).cause = some .len ∧
    (classify [0x20, 0, 0, 0, 0, 0x0A]).cause = none := by decide

/-- A state of full height: 31 bytes received, the 32nd to come. -/
def busy : State := { st [4, 0xE1] 1 noise31 with inbox := [.rxbyte 0x55], hidOut := [.mousePress 1], hid := { keys := KeySet.ofList [4, 0xE1], buttons := 1, reading := .orInto } }

theorem witness_StepKeepsReceiveBufferForm : RxInv busy ∧ (after (step busy) (·.rxbuf)).isSome = true := by
  unfold RxInv; decide

theorem witness_ByteLevelAgreesWithChunkLevel : RxInv busy ∧ ∀ x ∈ [Input.rxbyte 0x0A, .timeout], isPortEvent x = true := by
  unfold RxInv; decide

theorem witness_LineIsOneChunk : noise31.length ≤ 31 ∧ (∀ b ∈ noise31, b ≠ 0x0A#8) ∧ State.reset.rxbuf = [] := by decide

theorem witness_AlignedNoiseIsInvisible : (0x10 :: noise31).length = 32 * 1 ∧ (∀ b ∈ 0x10 :: noise31, b ≠ 0x0A#8) ∧
    State.reset.rxbuf = [] ∧ State.reset.applying = false := by decide

/-- Both shapes of a split keyboard frame that have an effect, one that has none, and a mouse frame. -/
theorem witness_SplitFrameOutcomes : State.reset.rxbuf = [] ∧ State.reset.applying = false ∧
    (0x0A#8 ∈ ([0, 0x0A, 0x20, 0, 4, 5, 0] : List Byte) ∧ 0x0A#8 ∉ ([0, 4, 5, 0] : List Byte)) ∧
    (0x0A#8 ∈ ([0x0A, 0x20, 1, 2, 3, 4, 0x0A] : List Byte) ∧ 0x0A#8 ∉ ([1, 2, 3, 4] : List Byte)) ∧
    0x0A#8 ∈ ([0x0A, 0, 0, 0, 0, 0, 0] : List Byte) ∧ 0x0A#8 ∈ ([0, 0, 0, 0x0A] : List Byte) := by decide

theorem witness_SplitKeyboardFrameOnlyOneShape : State.reset.rxbuf = [] ∧ State.reset.applying = false ∧
    0x0A#8 ∈ ([0x0A, 0x20, 1, 0, 0, 0, 0x0A] : List Byte) ∧
    ¬((0x20 : Byte) = 0x0A#8 ∧ (1 : Byte) = 0x20#8 ∧ 0x0A#8 ∉ ([0, 0, 0, 0x0A] : List Byte)) := by decide

theorem witness_TimeoutInsideFrame : State.reset.rxbuf = [] ∧ State.reset.applying = false ∧ 1 ≤ 3 ∧ 3 ≤ 8 ∧
    0x0A#8 ∉ ([0, 5, 0x20, 1, 2, 3, 4] : List Byte) ∧ 3 ≤ 5 ∧ 0x0A#8 ∉ ([1, 0, 0, 0] : List Byte) := by decide

theorem witness_StepNeverCarriesTerm : RxInv busy ∧ TermNeverCarried busy ∧ (∀ f, Input.frame f ∉ busy.inbox) ∧
    (after (step busy) (·.rxbuf)).isSome = true := by
  refine ⟨by unfold RxInv; decide, ⟨by decide, ?_⟩, ?_, by decide⟩
  · intro c hc
    have : c = .mousePress 1 := by simpa [busy, st, State.reset] using hc
    subst this
    show (1 : Byte) ≠ 0x0A#8
    decide
  · intro f hf
    simp [busy] at hf

theorem witness_KeysFormResult : 1 ≤ ([4] : List Byte).length ∧ ([4, 5, 6, 7, 8, 9] : List Byte).length ≤ 6 := by decide

/-- All 14 keys of K1. -/
def full : State := { st [4, 5, 6, 7, 8, 9, 0xE0, 0xE1, 0xE2, 0xE3, 0xE4, 0xE5, 0xE6, 0xE7] 0 [] with inbox := [.timeout] }

theorem witness_StepKeepsKeyBounds : KeyInv full ∧ (after (step full) (·.rxbuf)).isSome = true := by
  unfold KeyInv; decide

theorem witness_KeyboardCommandBound : KeyInv full ∧ KeySet.card full.getAks = 14 := by
  unfold KeyInv; decide

theorem witness_SignedReading : (0x7F : Byte).toNat ≤ 127 ∧ 128 ≤ (0x80 : Byte).toNat ∧ (-128 : Int) ≤ -128 ∧ (127 : Int) ≤ 127 := by decide

theorem witness_SetOperations : ∀ k : Byte, KeySet.has (KeySet.ofList [5, 4, 4]) k = KeySet.has (KeySet.ofList [4, 5]) k := by decide

theorem witness_SlotsCollapseToASet : ([0, 0, 0, 0, 0, 4] : List Byte).Perm [4, 0, 0, 0, 0, 0] := by decide

theorem witness_PreservedButtonDefect : (1 : Byte) ≠ 0x00#8 ∧ (st [] 3 []).getAbm ≠ 0x00#8 ∧ (1 : Byte) ≠ (st [] 3 []).getAbm := by decide

theorem witness_ButtonEdges : ((1 : Byte) ≠ 0x00#8 ∧ (st [] 0 []).getAbm ≠ 1) ∧ ((1 : Byte) ≠ 0x00#8 ∧ (st [] 1 []).getAbm = 1) ∧
    (st [] 1 []).getAbm ≠ 0x00#8 ∧ (st [] 0 []).getAbm = 0x00#8 := by decide

theorem witness_StepKeepsButtonHistory : AbmInv busy ∧ busy.getAbm ≠ 0x00#8 ∧ (after (step busy) (·.rxbuf)).isSome = true := by
  unfold AbmInv; decide

theorem witness_OnlyKeyboardFramesChangeAks :
    after (exec (.rxbyte 0x0A) (st [] 0 [0x10, 0, 4, 0, 0, 0, 0, 0])) (fun t => decide (t.getAks ≠ KeySet.empty)) = some true := by decide

theorem witness_OnlyMouseFramesChangeAbm :
    after (exec (.rxbyte 0x0A) (st [] 0 [0x20, 1, 0, 0, 0])) (fun t => decide (t.getAbm ≠ 0x00#8)) = some true := by decide

theorem witness_EveryStepHasANextState : ∀ f, Input.frame f ∈ ({ State.reset with inbox := [.frame (List.replicate 32 0)] } : State).inbox →
    f.length ≤ 32 := by
  intro f hf
  have : f = List.replicate 32 0 := by simpa using hf
  simp [this]

theorem witness_StepKeepsCommandsLegal : CommandsLegal busy ∧ (after (step busy) (·.rxbuf)).isSome = true := by
  refine ⟨?_, by decide⟩
  intro c hc
  have : c = .mousePress 1 := by simpa [busy, st, State.reset] using hc
  subst this
  show (1 : Byte) ≠ 0x00#8
  decide

theorem witness_StepRunsDecodedInstruction : busy.takePins.pins.reset = false ∧ busy.applying = false ∧
    busy.inbox = [.rxbyte 0x55] ∧ (∀ f, Input.rxbyte 0x55 ≠ .frame f) ∧ decode (.rxbyte 0x55) = .run (.rxbyte 0x55) ∧
    ({ busy with inbox := [.frame []] } : State).inbox = [.frame []] ∧ decode (.frame []) = .run .dropEmpty ∧
    decode .noFrame = .nothing ∧ State.reset.inbox = [] := by
  refine ⟨by decide, by decide, by decide, by simp, by decide, by decide, by decide, by decide, by decide⟩

theorem witness_InputLevelsFollowTrace : State.reset.pinTrace = [] ∧
    ({ State.reset with pinTrace := [⟨true, false⟩] } : State).pinTrace = [⟨true, false⟩] ∧
    after (step { State.reset with pinTrace := [⟨true, false⟩] }) (·.pins) = some ⟨true, false⟩ := by decide

/-- The middle of a keyboard frame, a command on the port and one to come, `cmd_ready` low and then high. -/
def stalled : State :=
  { st [4] 0 [] with
    cmdq := [.kbdPress (KeySet.ofList [4])]
    port := some (.kbdRelease 5)
    pins := { reset := false, cmdReady := false } }

theorem witness_CommandPortStep : stalled.takePins.pins.reset = false ∧ stalled.port = some (.kbdRelease 5) ∧
    stalled.takePins.pins.cmdReady = false ∧
    ({ stalled with pinTrace := [⟨false, true⟩] } : State).takePins.pins.cmdReady = true ∧
    ({ stalled with port := none } : State).cmdq = [.kbdPress (KeySet.ofList [4])] := by decide

theorem witness_InputsTakenOnlyWhenReady : after (step busy) (fun t => decide (t.inbox ≠ busy.inbox)) = some true := by decide

theorem witness_ResetEffect : midStep.takePins.pins.reset = true := by decide

theorem witness_EmittedCommandsStay : after (step { stalled with port := none }) (fun t => t.hidOut) = some [.kbdPress (KeySet.ofList [4])] ∧
    ({ stalled with port := none } : State).takePins.pins.reset = false := by decide

/-- A stalled state that a high `cmd_ready` wakes, with a frame to come. -/
def stalledThenLive : State := { stalled with pinTrace := [⟨false, false⟩, ⟨false, true⟩], inbox := [.frame [0x20, 1, 0, 0, 0, 0x0A]] }

theorem witness_LiveMachineReactsToEveryInput : hidLive stalledThenLive ∧ noResetAhead stalledThenLive ∧
    (after (reactAll stalledThenLive.inbox { stalledThenLive.flush with inbox := [] }) (·.rxbuf)).isSome = true := by
  unfold hidLive noResetAhead; decide

theorem witness_MouseCommandsOnHidLayer : State.reset.hid.reading = .orInto ∧
    ({ State.reset.hid with reading := .replace } : HidShadow).reading = .replace := by decide

theorem witness_StepKeepsKeyAgreement : KeysAgree busy ∧ busy.takePins.pins.reset = false ∧ busy.inbox.head? ≠ some .reset ∧
    (after (step busy) (·.rxbuf)).isSome = true := by
  unfold KeysAgree; decide

/-- The command port's step while a RESET event waits at the head of the inbox. -/
theorem witness_StepKeepsKeyAgreement_port :
    KeysAgree { busy with port := some (.mousePress 1), inbox := [.reset] } ∧
    ({ busy with port := some (.mousePress 1), inbox := [.reset] } : State).applying = true ∧
    after (step { busy with port := some (.mousePress 1), inbox := [.reset] }) (fun t => (t.port, t.inbox)) =
      some (none, [.reset]) := by
  unfold KeysAgree; decide

/-- E3: a key pressed at the HID layer that the core does not count. -/
def disagreeing : State := { st [4] 0 [] with hid := { keys := KeySet.ofList [4, 0x77], buttons := 3, reading := .orInto } }

theorem witness_IdleFrameRepairsHidLayer : disagreeing.cmdq = [] ∧ candidate 0 [5, 0, 0, 0, 0, 0] ≠ KeySet.empty ∧
    KeySet.has disagreeing.hid.keys 0x77 = true ∧ KeySet.has disagreeing.getAks 0x77 = false := by decide

/-- S4's transition from {04, 05} to {05, 06}: 04 is old, 06 is new. -/
theorem witness_ReleasedAndPressedNeverTogether : busy.cmdq = [] ∧ busy.hid.keys = busy.getAks ∧ KeySet.has busy.getAks 4 = true ∧
    KeySet.has (candidate 0 [5, 6, 0, 0, 0, 0]) 4 = false ∧ KeySet.has (candidate 0 [5, 6, 0, 0, 0, 0]) 6 = true ∧
    KeySet.has busy.getAks 6 = false := by decide

theorem witness_ReleaseOrderDoesNotMatter : ([4, 5] : List Byte).Perm [5, 4] := by decide

theorem witness_MouseAgreementInPart : busy.cmdq = [] ∧ busy.hid.buttons = busy.getAbm ∧ busy.hid.reading = .orInto ∧
    ((2 : Byte) ≠ 0x00#8 ∧ busy.getAbm ≠ 0x00#8 ∧ (2 : Byte) ≠ busy.getAbm) ∧
    ¬((1 : Byte) ≠ 0x00#8 ∧ busy.getAbm ≠ 0x00#8 ∧ (1 : Byte) ≠ busy.getAbm) := by decide

theorem witness_ReleaseFrameRepairsButtons : busy.cmdq = [] ∧ busy.getAbm ≠ 0x00#8 := by decide

end Sys2Proof.Tests
end

section
/-! The statements of 00_scope.md: key sets and `asc` (R10), the signed reading of a byte (R9). -/

namespace Sys2Proof.Proofs.Scope

open Sys2Proof.Machine

/-- Settles O27: the member-by-member laws of the key set operations, extensionality, and the order of `asc`. -/
theorem setOperations : Obligations.SetOperations := by
  refine ⟨fun a b k => ?_, fun a b => KeySet.has_ext, KeySet.asc_sorted, fun l k => ?_⟩
  · exact ⟨KeySet.has_union a b k, KeySet.has_inter a b k, KeySet.has_diff a b k, KeySet.has_empty k, KeySet.mem_asc a k⟩
  · rw [KeySet.has_ofList, decide_eq_true_iff]

/-- A byte up to 127 reads as itself (R9). -/
theorem sext8_of_le {b : Byte} (h : b.toNat ≤ 127) : sext8 b = b.toNat := if_pos h

/-- A byte from 128 on reads as itself less 256 (R9). -/
theorem sext8_of_ge {b : Byte} (h : 128 ≤ b.toNat) : sext8 b = (b.toNat : Int) - 256 := if_neg (by omega)

/-- Settles O34: the two rows of `sext8`, its range, and `pat8` as its inverse on that range. -/
theorem signedReading : Obligations.SignedReading := by
  refine ⟨fun b => ?_, fun v hlow hhigh => sext8_pat8 ⟨hlow, hhigh⟩⟩
  obtain ⟨hlow, hhigh⟩ := sext8_range b
  exact ⟨sext8_of_le, sext8_of_ge, hlow, hhigh, pat8_sext8 b, rfl⟩

end Sys2Proof.Proofs.Scope
end

section
/-! The statements of 30_encoding.md: the dispatch table on the tag byte and the total length (R74). -/

namespace Sys2Proof.Proofs.Encoding

/-- A chunk-level input of at most 32 bytes decodes to the row its chunk classifies as (R105). -/
theorem decode_frame_of_classify {f : List Byte} {c : Classified} (h : classify f = c) (hlen : f.length ≤ Config.RX_MAX) :
    decode (.frame f) = .run c.toInstr := by
  rw [← h]
  exact decodeChunk_of_length hlen

/-- The fields of K9 after the tag (R71). -/
theorem exists_kbd_fields {rest : List Byte} (h : rest.length + 1 = Config.KBD_LEN) :
    ∃ mod k0 k1 k2 k3 k4 k5 last, rest = [mod, k0, k1, k2, k3, k4, k5, last] :=
  match rest, h with
  | [mod, k0, k1, k2, k3, k4, k5, last], _ => ⟨mod, k0, k1, k2, k3, k4, k5, last, rfl⟩

/-- The fields of M6 after the tag (R72). -/
theorem exists_mouse_fields {rest : List Byte} (h : rest.length + 1 = Config.MOUSE_LEN) :
    ∃ buttons dx dy wheel last, rest = [buttons, dx, dy, wheel, last] :=
  match rest, h with
  | [buttons, dx, dy, wheel, last], _ => ⟨buttons, dx, dy, wheel, last, rfl⟩

/-- Settles O4: within the length bound decoding is classification, row by row on the tag and the length. -/
theorem dispatchTable : Obligations.DispatchTable := by
  refine ⟨decode_frame_of_classify classify_nil (Nat.zero_le _), fun t rest hlen => ⟨?kbd, ?lenK, ?mouse, ?lenM, ?tag⟩⟩
  case kbd =>
    rintro rfl h
    obtain ⟨mod, k0, k1, k2, k3, k4, k5, last, rfl⟩ := exists_kbd_fields h
    exact ⟨mod, k0, k1, k2, k3, k4, k5, last, rfl, decode_frame_of_classify (classify_kbd mod k0 k1 k2 k3 k4 k5 last) hlen⟩
  case lenK =>
    rintro rfl h
    exact decode_frame_of_classify (classify_dropLenK h) hlen
  case mouse =>
    rintro rfl h
    obtain ⟨buttons, dx, dy, wheel, last, rfl⟩ := exists_mouse_fields h
    exact ⟨buttons, dx, dy, wheel, last, rfl, decode_frame_of_classify (classify_mouse buttons dx dy wheel last) hlen⟩
  case lenM =>
    rintro rfl h
    exact decode_frame_of_classify (classify_dropLenM h) hlen
  case tag => exact fun hk hm => decode_frame_of_classify (classify_dropTag hk hm) hlen

end Sys2Proof.Proofs.Encoding
end

section
/-! The statements of 41_keyboard.md: the slots of a keyboard frame as a set (R132). -/

namespace Sys2Proof.Proofs.Keyboard

open Sys2Proof.Machine

/-- Slots with the same members give the same set, whatever their order and duplicates (R132). -/
theorem slotSet_eq_of_mem_iff {slots slots' : List Byte} (h : ∀ k, k ∈ slots ↔ k ∈ slots') : slotSet slots = slotSet slots' := by
  apply KeySet.has_ext
  intro k
  rw [has_slotSet, has_slotSet, decide_eq_decide]
  exact h k

/-- Settles O24: a slot set holds exactly the codes in the slots, so a permutation, which keeps the members, keeps it. -/
theorem slotsCollapseToASet : Obligations.SlotsCollapseToASet := by
  refine ⟨fun slots k => ?_, fun slots slots' hperm => slotSet_eq_of_mem_iff fun k => hperm.mem_iff⟩
  rw [has_slotSet, decide_eq_true_iff]

end Sys2Proof.Proofs.Keyboard
end

section
/-! The statements of 42_mouse.md: the button table (R153) and the change between two non-zero masks (R154). -/

namespace Sys2Proof.Proofs.Mouse

open Sys2Proof.Machine

/-- A mouse frame completes in every state: ABM becomes the button byte and the frame's commands join the list (R150, R155). -/
theorem exec_mouse (m dx dy wheel : Byte) (s : State) :
    exec (.mouse m dx dy wheel) s = .next { s with abm := m, cmdq := s.cmdq ++ mouseCommands s.getAbm m dx dy wheel } :=
  congrArg _ (reconcileMouse_eq m dx dy wheel s)

/-- The move is no button command, so what `isButton` keeps of a mouse frame is its button command (R152, R153). -/
theorem filter_isButton_mouseCommands (abm m dx dy wheel : Byte) :
    (mouseCommands abm m dx dy wheel).filter Command.isButton =
      if m ≠ 0x00#8 ∧ m ≠ abm then [.mousePress m] else if m = 0x00#8 ∧ abm ≠ 0x00#8 then [.mouseReleaseAll] else [] := by
  rw [mouseCommands, List.filter_cons_of_neg (by simp [Command.isButton])]
  split_ifs <;> rfl

/-- A non-zero mask other than ABM is pressed, whether or not ABM was zero (R153, R154). -/
theorem filter_isButton_of_press {abm m : Byte} (hm : m ≠ 0x00#8) (hne : m ≠ abm) (dx dy wheel : Byte) :
    (mouseCommands abm m dx dy wheel).filter Command.isButton = [.mousePress m] := by
  rw [filter_isButton_mouseCommands, if_pos ⟨hm, hne⟩]

/-- A zero mask releases a non-zero ABM (R153). -/
theorem filter_isButton_of_release {abm : Byte} (habm : abm ≠ 0x00#8) (dx dy wheel : Byte) :
    (mouseCommands abm 0x00#8 dx dy wheel).filter Command.isButton = [.mouseReleaseAll] := by
  rw [filter_isButton_mouseCommands, if_neg (fun h => h.1 rfl), if_pos ⟨rfl, habm⟩]

/-- The mask that is already in ABM, zero or not, gives no button command (R153). -/
theorem filter_isButton_of_unchanged (m dx dy wheel : Byte) :
    (mouseCommands m m dx dy wheel).filter Command.isButton = [] := by
  rw [filter_isButton_mouseCommands, if_neg (fun h => h.2 rfl), if_neg (fun h => h.2 h.1)]

/-- Settles O36: each row fixes the button command that the frame adds to its move; ABM is the button byte in all four. -/
theorem buttonEdges : Obligations.ButtonEdges := by
  intro m dx dy wheel s
  refine ⟨_, _, exec_mouse m dx dy wheel s, rfl, ?press, ?held, ?release, ?idle⟩
  case press => exact fun hm hne => ⟨filter_isButton_of_press hm hne.symm dx dy wheel, rfl⟩
  case held =>
    rintro - rfl
    exact ⟨filter_isButton_of_unchanged _ dx dy wheel, rfl⟩
  case release =>
    rintro rfl habm
    exact ⟨filter_isButton_of_release habm dx dy wheel, rfl⟩
  case idle =>
    rintro rfl habm
    rw [habm]
    exact ⟨filter_isButton_of_unchanged _ dx dy wheel, rfl⟩

/-- Settles O37: the press row of R153 does not ask whether ABM was zero, so a change between two non-zero masks falls under it. -/
theorem preservedButtonDefect : Obligations.PreservedButtonDefect := by
  intro m dx dy wheel s hm _ hne
  obtain ⟨t, new, hexec, hcmdq, hpress, -, -, -⟩ := buttonEdges m dx dy wheel s
  obtain ⟨hbuttons, habm⟩ := hpress hm hne.symm
  exact ⟨t, new, hexec, hcmdq, habm, hbuttons⟩

end Sys2Proof.Proofs.Mouse
end

section
/-! The statements of 43_hid_shadow.md: what a command does to the keys pressed at the HID layer (R171). -/

namespace Sys2Proof.Proofs.HidShadow

open Sys2Proof.Machine

/-- A press keeps the keys of HK and adds those of its set (R171). -/
theorem has_keys_act_kbdPress (h : HidShadow) (S : KeySet) (j : Byte) :
    KeySet.has (h.act (.kbdPress S)).keys j = (KeySet.has h.keys j || KeySet.has S j) :=
  KeySet.has_union h.keys S j

/-- A release takes its own key out of HK and leaves every other as it was, pressed or not (R171). -/
theorem has_keys_act_kbdRelease (h : HidShadow) (k j : Byte) :
    KeySet.has (h.act (.kbdRelease k)).keys j = (KeySet.has h.keys j && decide (j ≠ k)) :=
  calc KeySet.has (h.act (.kbdRelease k)).keys j
    _ = (KeySet.has h.keys j && !KeySet.has (KeySet.single k) j) := KeySet.has_diff h.keys (KeySet.single k) j
    _ = (KeySet.has h.keys j && decide (j ≠ k)) := by rw [KeySet.has_single, decide_not]

/-- Settles O53: the three keyboard commands member by member; the mouse commands write no key. -/
theorem keyboardCommandsOnHidLayer : Obligations.KeyboardCommandsOnHidLayer := by
  intro h S k j m x y w
  refine ⟨has_keys_act_kbdPress h S j, has_keys_act_kbdRelease h k j, ?releaseAll, ?mousePress, ?mouseReleaseAll, ?mouseMove⟩
  case releaseAll => exact KeySet.has_empty j
  case mousePress => rfl
  case mouseReleaseAll => rfl
  case mouseMove => rfl

end Sys2Proof.Proofs.HidShadow
end

section
/-! The statements of 60_exceptions.md: no instruction and no step faults, halts or is refused (R180). -/

namespace Sys2Proof.Proofs.Exceptions

open Sys2Proof.Machine

/-- Every outcome an instruction can have is a next state (R180). -/
theorem exists_exec_eq_next (i : Instr) (s : State) : ∃ t, exec i s = .next t := by
  obtain ⟨_, -, -, hstore⟩ | ⟨_, -, -, hclose⟩ | ⟨-, htimeout⟩ | ⟨-, hreset⟩ | ⟨_, hchunk⟩ := exec_cases i s
  · exact ⟨_, hstore⟩
  · exact ⟨_, hclose⟩
  · exact ⟨_, htimeout⟩
  · exact ⟨_, hreset⟩
  · exact ⟨_, hchunk⟩

/-- The only input that is refused is a chunk above the length R105 admits. -/
theorem exists_acceptInput_eq_next {x : Input} (hlen : ∀ f, x = .frame f → f.length ≤ Config.RX_MAX) (s : State) :
    ∃ t, acceptInput x s = .next t := by
  obtain ⟨_, t, -, -, hrun⟩ | ⟨-, hnothing⟩ | ⟨f, hframe, hlong, -⟩ := acceptInput_cases x s
  · exact ⟨t, hrun⟩
  · exact ⟨s, hnothing⟩
  · exact absurd (hlen f hframe) (Nat.not_le.mpr hlong)

/-- A step has a next state when the chunks in the inbox are of lengths R105 admits: only its accepting part could be refused. -/
theorem exists_step_eq_next {s : State} (hlen : ∀ f, Input.frame f ∈ s.inbox → f.length ≤ Config.RX_MAX) :
    ∃ t, step s = .next t := by
  obtain ⟨-, hreset⟩ | ⟨-, -, happly⟩ | ⟨-, -, -, hwait⟩ | ⟨x, rest, -, -, hinbox, haccept⟩ := stepWithPins_cases s.takePins
  · exact ⟨_, hreset⟩
  · exact ⟨_, happly⟩
  · exact ⟨_, hwait⟩
  · rw [State.takePins_inbox] at hinbox
    have holdest : ∀ f, x = .frame f → f.length ≤ Config.RX_MAX := by
      rintro f rfl
      exact hlen f (hinbox ▸ List.mem_cons_self)
    obtain ⟨t, ht⟩ := exists_acceptInput_eq_next holdest { s.takePins with inbox := rest }
    exact ⟨t, haccept.trans ht⟩

/-- Settles O42: the outcomes of an instruction are all next states, and the one refusal of a step needs a chunk of over 32 bytes. -/
theorem everyStepHasANextState : Obligations.EveryStepHasANextState :=
  ⟨exists_exec_eq_next, fun _ hlen => exists_step_eq_next hlen⟩

end Sys2Proof.Proofs.Exceptions
end

section
/-! The statements of 30_encoding.md on chunks: the shapes a chunk can have, and the two directions of the round trip. -/

namespace Sys2Proof.Proofs.Encoding

open Sys2Proof.Machine

/-- Settles O2: constructor by constructor, each by its row of the family RoundTrip. -/
theorem decodeOfEncode : Obligations.DecodeOfEncode := by
  intro i
  cases i with
  | kbd mod k0 k1 k2 k3 k4 k5 => exact Laws.RoundTrip.kbd mod k0 k1 k2 k3 k4 k5
  | mouse buttons dx dy wheel => exact Laws.RoundTrip.mouse buttons dx dy wheel
  | dropLenK rest => exact Laws.RoundTrip.dropLenK rest
  | dropLenM rest => exact Laws.RoundTrip.dropLenM rest
  | dropTag tag rest => exact Laws.RoundTrip.dropTag tag rest
  | dropEmpty => exact Laws.RoundTrip.dropEmpty
  | rxbyte b => exact Laws.RoundTrip.rxbyte b
  | timeout => exact Laws.RoundTrip.timeout
  | reset => exact Laws.RoundTrip.reset
  | kbdIdle => exact Laws.RoundTrip.kbdIdle
  | kbdKeys mod codes => exact Laws.RoundTrip.kbdKeys mod codes
  | mouseMove dx dy => exact Laws.RoundTrip.mouseMove dx dy
  | mouseBtn m => exact Laws.RoundTrip.mouseBtn m
  | nl => exact Laws.RoundTrip.nl

/-- The six shapes of a chunk, one for each row of R74's table. -/
inductive ChunkShape : List Byte → Prop where
  | empty : ChunkShape []
  | kbd (mod k0 k1 k2 k3 k4 k5 last : Byte) : ChunkShape [Config.KBD_TAG, mod, k0, k1, k2, k3, k4, k5, last]
  | mouse (buttons dx dy wheel last : Byte) : ChunkShape [Config.MOUSE_TAG, buttons, dx, dy, wheel, last]
  | lenK (rest : List Byte) (hlen : rest.length + 1 ≠ Config.KBD_LEN) : ChunkShape (Config.KBD_TAG :: rest)
  | lenM (rest : List Byte) (hlen : rest.length + 1 ≠ Config.MOUSE_LEN) : ChunkShape (Config.MOUSE_TAG :: rest)
  | tag (tag : Byte) (rest : List Byte) (hk : tag ≠ Config.KBD_TAG) (hm : tag ≠ Config.MOUSE_TAG) : ChunkShape (tag :: rest)

/-- Every chunk has one of the six shapes: first by its tag, then by its length (R74, R182). -/
theorem chunkShape (f : List Byte) : ChunkShape f := by
  match f with
  | [] => exact .empty
  | tag :: rest =>
    by_cases hk : tag = Config.KBD_TAG
    · subst hk
      by_cases hlen : rest.length + 1 = Config.KBD_LEN
      · obtain ⟨mod, k0, k1, k2, k3, k4, k5, last, rfl⟩ := exists_kbd_fields hlen
        exact .kbd mod k0 k1 k2 k3 k4 k5 last
      · exact .lenK rest hlen
    · by_cases hm : tag = Config.MOUSE_TAG
      · subst hm
        by_cases hlen : rest.length + 1 = Config.MOUSE_LEN
        · obtain ⟨buttons, dx, dy, wheel, last, rfl⟩ := exists_mouse_fields hlen
          exact .mouse buttons dx dy wheel last
        · exact .lenM rest hlen
      · exact .tag tag rest hk hm

/-- Settles O3: shape by shape; only the two frame shapes have a last byte that the encoder does not see. -/
theorem encodeOfDecode : Obligations.EncodeOfDecode := by
  intro f hlen
  cases chunkShape f with
  | empty => exact ⟨.dropEmpty, rfl, rfl, rfl⟩
  | kbd mod k0 k1 k2 k3 k4 k5 last => exact ⟨.kbd mod k0 k1 k2 k3 k4 k5, rfl, rfl, rfl⟩
  | mouse buttons dx dy wheel last =>
    have hclassify := classify_mouse buttons dx dy wheel last
    exact ⟨.mouse buttons dx dy wheel, decode_frame_of_classify hclassify hlen, rfl, by rw [hclassify]; rfl⟩
  | lenK rest hrest =>
    have hclassify := classify_dropLenK hrest
    exact ⟨.dropLenK rest, decode_frame_of_classify hclassify hlen,
      Bool.and_eq_true_iff.mpr ⟨decide_eq_true hrest, decide_eq_true hlen⟩, by rw [hclassify]; rfl⟩
  | lenM rest hrest =>
    have hclassify := classify_dropLenM hrest
    exact ⟨.dropLenM rest, decode_frame_of_classify hclassify hlen,
      Bool.and_eq_true_iff.mpr ⟨decide_eq_true hrest, decide_eq_true hlen⟩, by rw [hclassify]; rfl⟩
  | tag tag rest hk hm =>
    have hclassify := classify_dropTag (rest := rest) hk hm
    have hwf : (Instr.dropTag tag rest).wf = true := by simpa [Instr.wf, hk, hm] using hlen
    exact ⟨.dropTag tag rest, decode_frame_of_classify hclassify hlen, hwf, by rw [hclassify]; rfl⟩

/-- Settles O1: the eight words are read by evaluation. -/
theorem specWordsDecode : Obligations.SpecWordsDecode := by
  unfold Obligations.SpecWordsDecode
  decide

/-- A chunk within the length bound runs, with RXLEN 0, as the row it classifies as (R101, R105). -/
theorem acceptInput_frame {f : List Byte} (hlen : f.length ≤ Config.RX_MAX) (s : State) :
    acceptInput (.frame f) s = exec (classify f).toInstr s.memClear := by
  unfold acceptInput
  rw [decode, decodeChunk_of_length hlen]
  rfl

/-- Settles O6: the three cases of the chunk-level entry point. -/
theorem chunkLevelEntry : Obligations.ChunkLevelEntry := by
  refine ⟨fun _ => rfl, fun f s hlen => acceptInput_frame hlen s, fun f s hlong => ?_⟩
  unfold acceptInput
  rw [decode, decodeChunk_too_long hlong]

/-- Settles O14: the label of each of the six shapes; a shape fits one clause and contradicts the others. -/
theorem dropLabelPriority : Obligations.DropLabelPriority := by
  refine fun f => ⟨fun h => h ▸ rfl, ?_⟩
  rintro tag rest rfl
  refine ⟨fun hk hm => ?tag, ?lenK, ?lenM, ?frame⟩
  case tag => rw [classify_dropTag hk hm]; rfl
  case lenK =>
    rintro rfl hlen
    rw [classify_dropLenK hlen]; rfl
  case lenM =>
    rintro rfl hlen
    rw [classify_dropLenM hlen]; rfl
  case frame =>
    rintro (⟨rfl, hlen⟩ | ⟨rfl, hlen⟩)
    · obtain ⟨mod, k0, k1, k2, k3, k4, k5, last, rfl⟩ := exists_kbd_fields hlen
      rfl
    · obtain ⟨buttons, dx, dy, wheel, last, rfl⟩ := exists_mouse_fields hlen
      rw [classify_mouse]; rfl

/-- A chunk with an unknown tag, or a length that is not its tag's, has a drop label (R181). -/
theorem classify_cause_of_misfit {tag : Byte} {rest : List Byte} (hkbd : ¬(tag = Config.KBD_TAG ∧ rest.length + 1 = Config.KBD_LEN))
    (hmouse : ¬(tag = Config.MOUSE_TAG ∧ rest.length + 1 = Config.MOUSE_LEN)) : (classify (tag :: rest)).cause ≠ none := by
  obtain ⟨-, hcons⟩ := dropLabelPriority (tag :: rest)
  obtain ⟨htag, hlenK, hlenM, -⟩ := hcons tag rest rfl
  by_cases hk : tag = Config.KBD_TAG
  · rw [hlenK hk fun hlen => hkbd ⟨hk, hlen⟩]; simp
  · by_cases hm : tag = Config.MOUSE_TAG
    · rw [hlenM hm fun hlen => hmouse ⟨hm, hlen⟩]; simp
    · rw [htag hk hm]; simp

/-- Settles O5: such a chunk has a drop label, and a labelled chunk only empties RXBUF. -/
theorem unknownOrMisfitChunkIsDropped : Obligations.UnknownOrMisfitChunkIsDropped := by
  intro tag rest s hlen hkbd hmouse
  rw [acceptInput_frame (f := tag :: rest) hlen, exec_toInstr, chunkEffect_of_cause (classify_cause_of_misfit hkbd hmouse)]
  rfl

end Sys2Proof.Proofs.Encoding
end

section
/-! What a step and an accepted input can do, with each case named, and the invariants that every step keeps (R30, R47, R173,
R204). -/

namespace Sys2Proof.Proofs.Invariants

open Sys2Proof.Machine

/-- `AcceptResult s x t`: accepting `x` in `s` ends in `t` (R100 to R102, R105, R200). -/
inductive AcceptResult (s : State) : Input → State → Prop where
  | store (b : Byte) (hstore : ¬ closes b s) : AcceptResult s (.rxbyte b) (s.memPush b)
  | close (b : Byte) (hclose : closes b s) :
    AcceptResult s (.rxbyte b) (chunkEffect (classify (s.rxbuf ++ [b])) s.memClear)
  | timeout : AcceptResult s .timeout s.memClear
  | reset : AcceptResult s .reset s.toReset
  | frame (f : List Byte) (hlen : f.length ≤ Config.RX_MAX) : AcceptResult s (.frame f) (chunkEffect (classify f) s.memClear)
  | noFrame : AcceptResult s .noFrame s

theorem acceptInput_of_acceptResult {x : Input} {s t : State} (h : AcceptResult s x t) : acceptInput x s = .next t := by
  cases h with
  | store b hstore => exact execRxbyte_of_not_closes hstore
  | close b hclose => exact execRxbyte_of_closes hclose
  | timeout => rfl
  | reset => rfl
  | frame f hlen => rw [Encoding.acceptInput_frame hlen, exec_toInstr]
  | noFrame => rfl

/-- The results of accepting an input are these and no other. -/
theorem acceptInput_eq_next_iff {x : Input} {s t : State} : acceptInput x s = .next t ↔ AcceptResult s x t := by
  refine ⟨fun h => ?_, acceptInput_of_acceptResult⟩
  have determined : ∀ u, AcceptResult s x u → AcceptResult s x t := by
    intro u hu
    rw [acceptInput_of_acceptResult hu] at h
    cases h
    exact hu
  cases x with
  | rxbyte b =>
    by_cases hb : closes b s
    · exact determined _ (.close b hb)
    · exact determined _ (.store b hb)
  | timeout => exact determined _ .timeout
  | reset => exact determined _ .reset
  | noFrame => exact determined _ .noFrame
  | frame f =>
    by_cases hlen : f.length ≤ Config.RX_MAX
    · exact determined _ (.frame f hlen)
    · rw [acceptInput, decode, decodeChunk_too_long (Nat.lt_of_not_le hlen)] at h
      cases h

@[simp] theorem takePins_applying (s : State) : s.takePins.applying = s.applying := by simp [State.applying]

@[simp] theorem takePins_getAks (s : State) : s.takePins.getAks = s.getAks := State.getAks_congr s.takePins_aks

@[simp] theorem takePins_getAbm (s : State) : s.takePins.getAbm = s.getAbm := State.getAbm_congr s.takePins_abm

/-- The state in which a step accepts its input: the levels of the step are taken, and the inputs after it are left. -/
def accepting (s : State) (rest : List Input) : State := { s.takePins with inbox := rest }

theorem accepting_rxbuf (s : State) (rest : List Input) : (accepting s rest).rxbuf = s.rxbuf := s.takePins_rxbuf

theorem accepting_inbox (s : State) (rest : List Input) : (accepting s rest).inbox = rest := rfl

/-- `StepResult s t`: a step from `s` ends in `t`. The levels of the step are taken first; then RESET, the command port, or the
oldest input has the step (R200, R53, R50). -/
inductive StepResult (s : State) : State → Prop where
  | reset (hreset : s.takePins.pins.reset = true) : StepResult s s.takePins.toReset
  | port (hreset : s.takePins.pins.reset = false) (happ : s.applying = true) : StepResult s s.takePins.applyPart
  | wait (hreset : s.takePins.pins.reset = false) (happ : s.applying = false) (hinbox : s.inbox = []) : StepResult s s.takePins
  | accept (x : Input) (rest : List Input) (t : State) (hreset : s.takePins.pins.reset = false) (happ : s.applying = false)
    (hinbox : s.inbox = x :: rest) (haccept : AcceptResult (accepting s rest) x t) : StepResult s t

theorem stepResult_of_step {s t : State} (h : step s = .next t) : StepResult s t := by
  rw [step] at h
  obtain ⟨hreset, e⟩ | ⟨hreset, happ, e⟩ | ⟨hreset, happ, hinbox, e⟩ | ⟨x, rest, hreset, happ, hinbox, e⟩ :=
    stepWithPins_cases s.takePins
  · rw [e] at h; cases h
    exact .reset hreset
  · rw [e] at h; cases h
    exact .port hreset (takePins_applying s ▸ happ)
  · rw [e] at h; cases h
    exact .wait hreset (takePins_applying s ▸ happ) (s.takePins_inbox ▸ hinbox)
  · rw [e] at h
    exact .accept x rest t hreset (takePins_applying s ▸ happ) (s.takePins_inbox ▸ hinbox) (acceptInput_eq_next_iff.mp h)

/-! ### The receive buffer -/

theorem rxInv_of_rxbuf_eq {s t : State} (h : t.rxbuf = s.rxbuf) (hs : RxInv s) : RxInv t := by rwa [RxInv, h]

theorem acceptResult_keeps_rxInv {x : Input} {s t : State} (hs : RxInv s) (h : AcceptResult s x t) : RxInv t := by
  cases h with
  | store b hstore => exact memPush_wf hs hstore
  | close b hclose => exact chunkEffect_wf _ (memClear_wf s)
  | timeout => exact memClear_wf s
  | reset => exact memory_wf_nil
  | frame f hlen => exact chunkEffect_wf _ (memClear_wf s)
  | noFrame => exact hs

/-- Settles O15: an accepted input keeps the form; reset empties RXBUF, and the command port does not touch it. -/
theorem stepKeepsReceiveBufferForm : Obligations.StepKeepsReceiveBufferForm := by
  intro s t hs h
  have hpins : RxInv s.takePins := rxInv_of_rxbuf_eq s.takePins_rxbuf hs
  cases stepResult_of_step h with
  | reset hreset => exact memory_wf_nil
  | port hreset happ =>
    obtain ⟨-, -, hrxbuf, -, -, -⟩ := applyPart_core s.takePins
    exact rxInv_of_rxbuf_eq hrxbuf hpins
  | wait hreset happ hinbox => exact hpins
  | accept x rest t hreset happ hinbox haccept =>
    exact acceptResult_keeps_rxInv (rxInv_of_rxbuf_eq (accepting_rxbuf s rest) hs) haccept

/-! ### Invariants of the registers and the commands -/

/-- The registers read the same, and the commands emitted and to come are the same. -/
structure SameView (s t : State) : Prop where
  aks : t.getAks = s.getAks
  abm : t.getAbm = s.getAbm
  commands : t.hidOut ++ t.cmdq = s.hidOut ++ s.cmdq

theorem sameView_takePins (s : State) : SameView s s.takePins := by
  constructor <;> simp

theorem sameView_accepting (s : State) (rest : List Input) : SameView s (accepting s rest) :=
  ⟨takePins_getAks s, takePins_getAbm s, (sameView_takePins s).commands⟩

theorem sameView_applyPart (s : State) : SameView s s.applyPart := by
  obtain ⟨haks, habm, -, -, -, -⟩ := applyPart_core s
  exact ⟨State.getAks_congr haks, State.getAbm_congr habm, applyPart_commands s⟩

/-- What is kept by a change outside the view, by RESET and by the two reconcilers is kept by every step. -/
theorem step_keeps_of_view {P : State → Prop} (hview : ∀ s t, SameView s t → P s → P t) (hreset : ∀ s, P s → P s.toReset)
    (hkbd : ∀ mod slots s, slots.length = Config.N_SLOTS → P s → P (reconcileKeyboard mod slots s))
    (hmouse : ∀ buttons dx dy wheel s, P s → P (reconcileMouse buttons dx dy wheel s))
    {s t : State} (hs : P s) (h : step s = .next t) : P t := by
  have hclear : ∀ s : State, P s → P s.memClear := fun s => hview s s.memClear ⟨rfl, rfl, rfl⟩
  have hchunk : ∀ c (s : State), P s → P (chunkEffect c s) := by
    intro c s hs
    cases c with
    | kbd mod k0 k1 k2 k3 k4 k5 => exact hkbd mod _ s rfl hs
    | mouse buttons dx dy wheel => exact hmouse buttons dx dy wheel s hs
    | dropLenK rest => exact hclear s hs
    | dropLenM rest => exact hclear s hs
    | dropTag tag rest => exact hclear s hs
    | dropEmpty => exact hclear s hs
  have hpins : P s.takePins := hview s _ (sameView_takePins s) hs
  cases stepResult_of_step h with
  | reset _ => exact hreset _ hpins
  | port _ _ => exact hview _ _ (sameView_applyPart _) hpins
  | wait _ _ _ => exact hpins
  | accept x rest t _ _ _ haccept =>
    have haccepting : P (accepting s rest) := hview s _ (sameView_accepting s rest) hs
    cases haccept with
    | store b _ => exact hview (accepting s rest) _ ⟨rfl, rfl, rfl⟩ haccepting
    | close b _ => exact hchunk _ _ (hclear _ haccepting)
    | timeout => exact hclear _ haccepting
    | reset => exact hreset _ haccepting
    | frame f _ => exact hchunk _ _ (hclear _ haccepting)
    | noFrame => exact haccepting

@[simp] theorem getAks_reconcileMouse (buttons dx dy wheel : Byte) (s : State) :
    (reconcileMouse buttons dx dy wheel s).getAks = s.getAks := State.getAks_congr (by rw [reconcileMouse_eq])

@[simp] theorem getAbm_reconcileMouse (buttons dx dy wheel : Byte) (s : State) :
    (reconcileMouse buttons dx dy wheel s).getAbm = buttons := by rw [reconcileMouse_eq]; rfl

@[simp] theorem getAbm_reconcileKeyboard (mod : Byte) (slots : List Byte) (s : State) :
    (reconcileKeyboard mod slots s).getAbm = s.getAbm := by rw [reconcileKeyboard_eq]; rfl

theorem commands_reconcileKeyboard (mod : Byte) (slots : List Byte) (s : State) :
    (reconcileKeyboard mod slots s).hidOut ++ (reconcileKeyboard mod slots s).cmdq =
      (s.hidOut ++ s.cmdq) ++ keyboardCommands s.getAks (candidate mod slots) := by
  rw [reconcileKeyboard_eq, List.append_assoc]

theorem commands_reconcileMouse (buttons dx dy wheel : Byte) (s : State) :
    (reconcileMouse buttons dx dy wheel s).hidOut ++ (reconcileMouse buttons dx dy wheel s).cmdq =
      (s.hidOut ++ s.cmdq) ++ mouseCommands s.getAbm buttons dx dy wheel := by
  rw [reconcileMouse_eq, List.append_assoc]

/-- RESET abandons what was to come, so its commands were there before (R201). -/
theorem mem_commands_of_mem_toReset {c : Command} {s : State} (h : c ∈ s.toReset.hidOut ++ s.toReset.cmdq) :
    c ∈ s.hidOut ++ s.cmdq := by
  rw [State.toReset_hidOut, State.toReset_cmdq, List.append_nil] at h
  exact List.mem_append_left _ h

/-- What holds of the releases of asserted keys, of a full release and of the press of the candidates holds of a keyboard frame's
commands. -/
theorem forall_keyboardCommands {p : Command → Prop} {a c : KeySet} (hrelease : ∀ k, KeySet.has a k = true → p (.kbdRelease k))
    (hall : p .kbdReleaseAll) (hpress : p (.kbdPress c)) : ∀ d ∈ keyboardCommands a c, p d := by
  intro d hd
  rw [keyboardCommands, List.mem_append, List.mem_append, List.mem_singleton, List.mem_map] at hd
  obtain ⟨k, hk, rfl⟩ | hd | rfl := hd
  · exact hrelease k ((mem_asc_releaseSet a c k).mp hk).1
  · split_ifs at hd
    · exact List.mem_singleton.mp hd ▸ hall
    · cases hd
  · exact hpress

/-- What holds of the move, of the press of a non-zero mask and of a release-all holds of a mouse frame's commands. -/
theorem forall_mouseCommands {p : Command → Prop} {abm m dx dy wheel : Byte}
    (hmove : p (.mouseMove (sext8 dx) (sext8 dy) (sext8 wheel))) (hpress : m ≠ 0x00#8 → p (.mousePress m))
    (hall : p .mouseReleaseAll) : ∀ d ∈ mouseCommands abm m dx dy wheel, p d := by
  intro d hd
  rw [mouseCommands, List.mem_cons] at hd
  obtain rfl | hd := hd
  · exact hmove
  · split_ifs at hd with hm
    · exact List.mem_singleton.mp hd ▸ hpress hm.1
    · exact List.mem_singleton.mp hd ▸ hall
    · cases hd

/-- A keyboard frame's candidates are within the bounds of AKS, whatever AKS was (R133). -/
theorem keyInv_reconcileKeyboard (mod : Byte) {slots : List Byte} (hslots : slots.length = Config.N_SLOTS) (s : State) :
    KeyInv (reconcileKeyboard mod slots s) := by
  rw [KeyInv, getAks_reconcileKeyboard, ← hslots]
  exact ⟨card_candidate_le mod slots, plain_candidates_le mod slots⟩

theorem keyInv_of_getAks_eq {s t : State} (h : t.getAks = s.getAks) (hs : KeyInv s) : KeyInv t := by rwa [KeyInv, h]

theorem keyInv_toReset (s : State) : KeyInv s.toReset := by
  rw [KeyInv, State.getAks_toReset, KeySet.card, KeySet.asc_empty]
  exact ⟨Nat.zero_le _, Nat.zero_le _⟩

/-- Settles O32: a keyboard frame sets AKS to candidates, of which there are few enough; RESET empties it; nothing else writes it. -/
theorem stepKeepsKeyBounds : Obligations.StepKeepsKeyBounds := by
  refine fun s t => step_keeps_of_view ?view ?reset ?kbd ?mouse
  case view => exact fun s t hview => keyInv_of_getAks_eq hview.aks
  case reset => exact fun s _ => keyInv_toReset s
  case kbd => exact fun mod slots s hslots _ => keyInv_reconcileKeyboard mod hslots s
  case mouse => exact fun buttons dx dy wheel s => keyInv_of_getAks_eq (getAks_reconcileMouse buttons dx dy wheel s)

/-- A mouse frame with a new non-zero mask presses it (R153). -/
theorem mousePress_mem_mouseCommands {abm m : Byte} (hm : m ≠ 0x00#8) (hne : m ≠ abm) (dx dy wheel : Byte) :
    Command.mousePress m ∈ mouseCommands abm m dx dy wheel := by
  rw [mouseCommands, if_pos ⟨hm, hne⟩]
  exact List.mem_cons_of_mem _ (List.mem_singleton_self _)

theorem abmInv_reconcileMouse (buttons dx dy wheel : Byte) {s : State} (hs : AbmInv s) :
    AbmInv (reconcileMouse buttons dx dy wheel s) := by
  rw [AbmInv, getAbm_reconcileMouse, commands_reconcileMouse]
  by_cases hzero : buttons = 0x00#8
  · exact .inl hzero
  · right
    by_cases hsame : buttons = s.getAbm
    · exact List.mem_append_left _ (hsame ▸ hs.resolve_left (hsame ▸ hzero))
    · exact List.mem_append_right _ (mousePress_mem_mouseCommands hzero hsame dx dy wheel)

theorem abmInv_reconcileKeyboard (mod : Byte) (slots : List Byte) {s : State} (hs : AbmInv s) :
    AbmInv (reconcileKeyboard mod slots s) := by
  rw [AbmInv, getAbm_reconcileKeyboard, commands_reconcileKeyboard]
  exact hs.imp_right (List.mem_append_left _)

/-- Settles O39: a mask new in ABM is pressed by the frame that brings it; the commands it may rest on only grow, but for RESET,
which makes ABM 0. -/
theorem stepKeepsButtonHistory : Obligations.StepKeepsButtonHistory := by
  refine fun s t => step_keeps_of_view ?view ?reset ?kbd ?mouse
  case view =>
    intro s t hview hs
    rwa [AbmInv, hview.abm, hview.commands]
  case reset => exact fun s _ => .inl s.getAbm_toReset
  case kbd => exact fun mod slots s _ => abmInv_reconcileKeyboard mod slots
  case mouse => exact fun buttons dx dy wheel s => abmInv_reconcileMouse buttons dx dy wheel

/-- The commands of a keyboard frame are legal: AKS and the candidates are without 0, and there are at most 14 candidates (R47). -/
theorem legal_keyboardCommands (s : State) (mod : Byte) {slots : List Byte} (hslots : slots.length = Config.N_SLOTS) :
    ∀ c ∈ keyboardCommands s.getAks (candidate mod slots), c.legal := by
  refine forall_keyboardCommands ?release trivial ?press
  case release =>
    rintro k hk rfl
    rw [s.has_getAks_zero] at hk
    cases hk
  case press => exact ⟨candidate_zero mod slots, hslots ▸ card_candidate_le mod slots⟩

/-- The commands of a mouse frame are legal: its deltas are signed bytes and the mask 0 is not pressed (R47). -/
theorem legal_mouseCommands (abm buttons dx dy wheel : Byte) : ∀ c ∈ mouseCommands abm buttons dx dy wheel, c.legal :=
  forall_mouseCommands ⟨sext8_range dx, sext8_range dy, sext8_range wheel⟩ id trivial

/-- Settles O43: the two reconcilers add legal commands only. -/
theorem stepKeepsCommandsLegal : Obligations.StepKeepsCommandsLegal := by
  refine fun s t => step_keeps_of_view ?view ?reset ?kbd ?mouse
  case view =>
    intro s t hview hs
    rwa [CommandsLegal, hview.commands]
  case reset => exact fun s hs c hc => hs c (mem_commands_of_mem_toReset hc)
  case kbd =>
    intro mod slots s hslots hs
    rw [CommandsLegal, commands_reconcileKeyboard, List.forall_mem_append]
    exact ⟨hs, legal_keyboardCommands s mod hslots⟩
  case mouse =>
    intro buttons dx dy wheel s hs
    rw [CommandsLegal, commands_reconcileMouse, List.forall_mem_append]
    exact ⟨hs, legal_mouseCommands s.getAbm buttons dx dy wheel⟩

/-! ### Key 0x0A and a motion of +10 -/

theorem termNeverCarried_of_sameView {s t : State} (hview : SameView s t) (hs : TermNeverCarried s) : TermNeverCarried t := by
  rwa [TermNeverCarried, hview.aks, hview.commands]

theorem termNeverCarried_toReset {s : State} (hs : TermNeverCarried s) : TermNeverCarried s.toReset := by
  refine ⟨?_, fun c hc => hs.2 c (mem_commands_of_mem_toReset hc)⟩
  rw [State.getAks_toReset, KeySet.has_empty]

/-- 0x0A is no modifier code, so only a slot can name it (R204). -/
theorem has_candidate_term (mod : Byte) {slots : List Byte} (hslots : Config.TERM ∉ slots) :
    KeySet.has (candidate mod slots) Config.TERM = false := by
  have hmod : Config.TERM ∉ modifierCodes mod := fun h => absurd (isModifierCode_of_mem_modifierCodes h) (by decide)
  rw [has_candidate, decide_eq_false hmod, decide_eq_false hslots]
  rfl

theorem termNeverCarried_reconcileKeyboard (mod : Byte) {slots : List Byte} (hslots : Config.TERM ∉ slots) {s : State}
    (hs : TermNeverCarried s) : TermNeverCarried (reconcileKeyboard mod slots s) := by
  obtain ⟨haks, hcommands⟩ := hs
  rw [TermNeverCarried, getAks_reconcileKeyboard, commands_reconcileKeyboard, List.forall_mem_append]
  refine ⟨has_candidate_term mod hslots, hcommands, forall_keyboardCommands ?release trivial (has_candidate_term mod hslots)⟩
  case release =>
    rintro k hk rfl
    rw [haks] at hk
    cases hk

theorem sext8_ne_ten {b : Byte} (h : b ≠ Config.TERM) : sext8 b ≠ 10 := fun he => h (sext8_injective (b := Config.TERM) he)

theorem termNeverCarried_reconcileMouse {buttons dx dy wheel : Byte} (hfields : Config.TERM ∉ [buttons, dx, dy, wheel]) {s : State}
    (hs : TermNeverCarried s) : TermNeverCarried (reconcileMouse buttons dx dy wheel s) := by
  obtain ⟨haks, hcommands⟩ := hs
  have hfield : ∀ b ∈ [buttons, dx, dy, wheel], b ≠ Config.TERM := fun b hb he => hfields (he ▸ hb)
  rw [TermNeverCarried, getAks_reconcileMouse, commands_reconcileMouse, List.forall_mem_append]
  refine ⟨haks, hcommands, forall_mouseCommands ⟨?x, ?y, ?w⟩ (fun _ => ?press) trivial⟩
  case x => exact sext8_ne_ten (hfield dx (by simp))
  case y => exact sext8_ne_ten (hfield dy (by simp))
  case w => exact sext8_ne_ten (hfield wheel (by simp))
  case press => exact hfield buttons (by simp)

/-- A chunk whose bytes but the last are not TERM carries no TERM in a field (R204). -/
theorem termNeverCarried_chunkEffect {f : List Byte} (hf : Config.TERM ∉ f.dropLast) {s : State} (hs : TermNeverCarried s) :
    TermNeverCarried (chunkEffect (classify f) s) := by
  have hclear : TermNeverCarried s.memClear := termNeverCarried_of_sameView ⟨rfl, rfl, rfl⟩ hs
  cases Encoding.chunkShape f with
  | empty => exact hclear
  | kbd mod k0 k1 k2 k3 k4 k5 last =>
    have hslots : Config.TERM ∉ [k0, k1, k2, k3, k4, k5] := fun h => hf (List.mem_cons_of_mem _ (List.mem_cons_of_mem _ h))
    exact termNeverCarried_reconcileKeyboard mod hslots hs
  | mouse buttons dx dy wheel last =>
    rw [classify_mouse]
    exact termNeverCarried_reconcileMouse (fun h => hf (List.mem_cons_of_mem _ h)) hs
  | lenK rest hlen => rw [classify_dropLenK hlen]; exact hclear
  | lenM rest hlen => rw [classify_dropLenM hlen]; exact hclear
  | tag tag rest hk hm => rw [classify_dropTag hk hm]; exact hclear

theorem termNeverCarried_of_acceptResult {x : Input} {s t : State} (hx : ∀ f, x ≠ .frame f) (hrx : RxInv s)
    (hs : TermNeverCarried s) (h : AcceptResult s x t) : TermNeverCarried t := by
  have hclear : TermNeverCarried s.memClear := termNeverCarried_of_sameView ⟨rfl, rfl, rfl⟩ hs
  cases h with
  | store b hstore => exact termNeverCarried_of_sameView ⟨rfl, rfl, rfl⟩ hs
  | close b hclose =>
    refine termNeverCarried_chunkEffect (fun h => ?_) hclear
    rw [List.dropLast_concat] at h
    exact ((memory_wf_iff s.rxbuf).mp hrx).2 _ h rfl
  | timeout => exact hclear
  | reset => exact termNeverCarried_toReset hs
  | frame f hlen => exact absurd rfl (hx f)
  | noFrame => exact hs

theorem acceptResult_inbox {x : Input} {s t : State} (h : AcceptResult s x t) : t.inbox = s.inbox := by
  cases h <;> simp [chunkEffect_eq]

/-- Settles O22: the framer closes a chunk at its first TERM, so at the byte level no field of a frame is 0x0A. -/
theorem stepNeverCarriesTerm : Obligations.StepNeverCarriesTerm := by
  intro s t hrx hs hframes h
  have hpins : TermNeverCarried s.takePins := termNeverCarried_of_sameView (sameView_takePins s) hs
  have hframes : ∀ f, Input.frame f ∉ s.takePins.inbox := fun f => s.takePins_inbox ▸ hframes f
  cases stepResult_of_step h with
  | reset hreset => exact ⟨termNeverCarried_toReset hpins, hframes⟩
  | port hreset happ =>
    obtain ⟨-, -, -, hinbox, -, -⟩ := applyPart_core s.takePins
    exact ⟨termNeverCarried_of_sameView (sameView_applyPart _) hpins, fun f => hinbox ▸ hframes f⟩
  | wait hreset happ hinbox => exact ⟨hpins, hframes⟩
  | accept x rest t hreset happ hinbox haccept =>
    rw [s.takePins_inbox, hinbox] at hframes
    have hx : ∀ f, x ≠ .frame f := fun f he => hframes f (he ▸ List.mem_cons_self)
    have hrx : RxInv (accepting s rest) := rxInv_of_rxbuf_eq (accepting_rxbuf s rest) hrx
    have hs : TermNeverCarried (accepting s rest) := termNeverCarried_of_sameView (sameView_accepting s rest) hs
    refine ⟨termNeverCarried_of_acceptResult hx hrx hs haccept, fun f hf => ?_⟩
    rw [acceptResult_inbox haccept] at hf
    exact hframes f (List.mem_cons_of_mem _ hf)

/-! ### Keyboard agreement -/

/-- A mouse command leaves HK, so the commands of a mouse frame do. -/
theorem keys_actAll_mouseCommands (h : HidShadow) (abm m dx dy wheel : Byte) :
    (h.actAll (mouseCommands abm m dx dy wheel)).keys = h.keys := by
  unfold mouseCommands
  split_ifs <;> rfl

theorem keysAgree_reconcileKeyboard (mod : Byte) (slots : List Byte) {s : State} (hs : KeysAgree s) :
    KeysAgree (reconcileKeyboard mod slots s) := by
  rw [KeysAgree, getAks_reconcileKeyboard, reconcileKeyboard_eq, actAll_append]
  apply KeySet.has_ext
  intro k
  rw [has_actAll_keyboardCommands, hs, Bool.and_not_self, Bool.and_false, Bool.or_false]

theorem keysAgree_reconcileMouse (buttons dx dy wheel : Byte) {s : State} (hs : KeysAgree s) :
    KeysAgree (reconcileMouse buttons dx dy wheel s) := by
  rw [KeysAgree, getAks_reconcileMouse, reconcileMouse_eq, actAll_append, keys_actAll_mouseCommands]
  exact hs

theorem keysAgree_chunkEffect (c : Classified) {s : State} (hs : KeysAgree s) : KeysAgree (chunkEffect c s) := by
  cases c with
  | kbd mod k0 k1 k2 k3 k4 k5 => exact keysAgree_reconcileKeyboard mod _ hs
  | mouse buttons dx dy wheel => exact keysAgree_reconcileMouse buttons dx dy wheel hs
  | dropLenK rest => exact hs
  | dropLenM rest => exact hs
  | dropTag tag rest => exact hs
  | dropEmpty => exact hs

theorem keysAgree_of_acceptResult {x : Input} {s t : State} (hx : x ≠ .reset) (hs : KeysAgree s) (h : AcceptResult s x t) :
    KeysAgree t := by
  cases h with
  | store b hstore => exact hs
  | close b hclose => exact keysAgree_chunkEffect _ hs
  | timeout => exact hs
  | reset => exact absurd rfl hx
  | frame f hlen => exact keysAgree_chunkEffect _ hs
  | noFrame => exact hs

/-- Settles O55: a keyboard frame's commands take HK from AKS to the candidates, mouse commands leave it, and the command port
only moves the moment at which a command acts. -/
theorem stepKeepsKeyAgreement : Obligations.StepKeepsKeyAgreement := by
  intro s t hs hlow hhead h
  have hpins : KeysAgree s.takePins := by rwa [KeysAgree, takePins_getAks, s.takePins_hid, s.takePins_cmdq]
  cases stepResult_of_step h with
  | reset hreset => rw [hlow] at hreset; cases hreset
  | port hreset happ => rwa [KeysAgree, applyPart_actAll, (sameView_applyPart _).aks]
  | wait hreset happ hinbox => exact hpins
  | accept x rest t hreset happ hinbox haccept =>
    have hx : x ≠ .reset := by
      rintro rfl
      rw [happ, hinbox] at hhead
      simp at hhead
    exact keysAgree_of_acceptResult (s := accepting s rest) hx hpins haccept

/-- Settles O50: nothing is held, received, pressed or emitted in the reset state, so each invariant holds at its empty case. -/
theorem invariantsHoldAtReset : Obligations.InvariantsHoldAtReset := by
  have hcommands : ∀ c, c ∉ State.reset.hidOut ++ State.reset.cmdq := fun _ => List.not_mem_nil
  have haks : State.reset.getAks = KeySet.empty := hardwire_empty
  refine ⟨memory_wf_nil, keyInv_toReset .reset, .inl rfl, fun c hc => absurd hc (hcommands c), haks.symm, ?_,
    fun c hc => absurd hc (hcommands c)⟩
  rw [haks, KeySet.has_empty]

end Sys2Proof.Proofs.Invariants
end

section
/-! The statements of 40_frame_reader.md and 60_exceptions.md on single instructions: RXBYTE, TIMEOUT, the drops and their labels. -/

namespace Sys2Proof.Proofs.FrameReader

open Sys2Proof.Machine

theorem rxlen_memPush (s : State) (b : Byte) : (s.memPush b).rxlen = s.rxlen + 1 := List.length_append

/-- A stored byte is the one at index RXLEN (R100). -/
theorem memRead_memPush_rxlen (s : State) (b : Byte) : (s.memPush b).memRead s.rxlen = some b := List.getElem?_concat_length

/-- A stored byte leaves every other index as it reads, valid or not (R100). -/
theorem memRead_memPush_of_ne {s : State} {i : Nat} (h : i ≠ s.rxlen) (b : Byte) : (s.memPush b).memRead i = s.memRead i := by
  obtain hlt | hgt := Nat.lt_or_gt_of_ne h
  · exact List.getElem?_append_left hlt
  · have hpush : (s.memPush b).rxlen ≤ i := (rxlen_memPush s b).trans_le hgt
    rw [State.memRead, State.memRead, List.getElem?_eq_none hpush, List.getElem?_eq_none (Nat.le_of_lt hgt)]

/-- Settles O9: such a byte closes no chunk, so it is stored. -/
theorem rxbyteStoresOneByte : Obligations.RxbyteStoresOneByte := by
  intro b s hterm hlast
  have hstore : ¬ closes b s := not_or.mpr ⟨hterm, hlast⟩
  exact ⟨s.memPush b, execRxbyte_of_not_closes hstore, rfl, rxlen_memPush s b, memRead_memPush_rxlen s b,
    fun i hi => memRead_memPush_of_ne hi b⟩

/-- Settles O10: the closing byte completes the chunk, which is dispatched with RXBUF empty. -/
theorem rxbyteClosesChunk : Obligations.RxbyteClosesChunk := by
  intro b s hclose
  exact ⟨_, execRxbyte_of_closes hclose, (chunkEffect_rxbuf _ _).trans (chunkRxbuf_memClear _ s), exec_toInstr _ s.memClear⟩

/-- Settles O11: TIMEOUT is the clear of RXBUF. -/
theorem timeoutDiscardsPartialChunk : Obligations.TimeoutDiscardsPartialChunk := fun _ => rfl

/-- Settles O12: each of the five is the shared operation `State.drop`, which clears RXBUF. -/
theorem dropsOnlyEmptyTheBuffer : Obligations.DropsOnlyEmptyTheBuffer := fun _ _ _ => ⟨rfl, rfl, rfl, rfl, rfl⟩

/-- The label of an RXBYTE that closes a chunk is the chunk's (R181). -/
theorem dropLabel_rxbyte_of_closes {b : Byte} {s : State} (h : closes b s) :
    dropLabel (.rxbyte b) s = (classify (s.rxbuf ++ [b])).cause := by
  rw [closes, ← rxlen_memPush s b] at h
  exact if_pos h

/-- An RXBYTE that stores its byte is no drop (R181). -/
theorem dropLabel_rxbyte_of_not_closes {b : Byte} {s : State} (h : ¬ closes b s) : dropLabel (.rxbyte b) s = none := by
  rw [closes, ← rxlen_memPush s b] at h
  exact if_neg h

/-- Settles O13: the drops and TIMEOUT clear RXBUF; a labelled RXBYTE closes a chunk whose effect is to clear it. -/
theorem labelledDropsEmitNothing : Obligations.LabelledDropsEmitNothing := by
  intro i s hlabel
  cases i with
  | rxbyte b =>
    by_cases hclose : closes b s
    · rw [dropLabel_rxbyte_of_closes hclose] at hlabel
      exact (execRxbyte_of_closes hclose).trans (congrArg _ (chunkEffect_of_cause hlabel s.memClear))
    · exact absurd (dropLabel_rxbyte_of_not_closes hclose) hlabel
  | timeout => rfl
  | dropLenK rest => rfl
  | dropLenM rest => rfl
  | dropTag tag rest => rfl
  | dropEmpty => rfl
  | nl => rfl
  | kbd => exact absurd rfl hlabel
  | mouse => exact absurd rfl hlabel
  | reset => exact absurd rfl hlabel
  | kbdIdle => exact absurd rfl hlabel
  | kbdKeys => exact absurd rfl hlabel
  | mouseMove => exact absurd rfl hlabel
  | mouseBtn => exact absurd rfl hlabel

end Sys2Proof.Proofs.FrameReader
end

section
/-! The statements of 41_keyboard.md: the sets of a keyboard frame (R131 to R133, R211) and its whole next state (R138). -/

namespace Sys2Proof.Proofs.Keyboard

open Sys2Proof.Machine

/-- A translated modifier is `0xE0 + i` for a set bit `i` (R25, R131). -/
theorem mem_modifierCodes_iff (mod k : Byte) :
    k ∈ modifierCodes mod ↔ ∃ i, i < 8 ∧ mod.getLsbD i = true ∧ k.toNat = 0xE0 + i := by
  rw [mem_modifierCodes]
  constructor
  · rintro ⟨i, hbit, rfl⟩
    exact ⟨i.val, i.isLt, hbit, modTab_toNat i⟩
  · rintro ⟨i, hi, hbit, hk⟩
    exact ⟨⟨i, hi⟩, hbit, BitVec.eq_of_toNat_eq ((modTab_toNat ⟨i, hi⟩).trans hk.symm)⟩

/-- Settles O23: membership in the translated modifiers is that of their list. -/
theorem modifierDecode : Obligations.ModifierDecode := by
  intro mod k
  rw [has_modifierSet, decide_eq_true_iff, mem_modifierCodes_iff]

/-- The members of the candidate set (R133). -/
theorem has_candidate_iff (mod : Byte) (slots : List Byte) (k : Byte) :
    KeySet.has (candidate mod slots) k = true ↔ k ≠ Config.EMPTY_SLOT ∧ (k ∈ modifierCodes mod ∨ k ∈ slots) := by
  simp only [has_candidate, Bool.and_eq_true, Bool.or_eq_true, Bool.not_eq_true', decide_eq_true_eq, decide_eq_false_iff_not]
  exact And.comm

/-- No modifier is translated exactly when no bit is set. -/
theorem modifierCodes_eq_nil_iff (mod : Byte) : modifierCodes mod = [] ↔ mod = 0x00#8 := by
  constructor
  · intro h
    apply BitVec.eq_of_getLsbD_eq
    intro i hi
    by_contra hbit
    have hmem : modTab ⟨i, hi⟩ ∈ modifierCodes mod := (mem_modifierCodes _ _).mpr ⟨⟨i, hi⟩, by simpa using hbit, rfl⟩
    rw [h] at hmem
    cases hmem
  · rintro rfl
    rfl

/-- No key is wanted exactly when no bit is set and every slot is empty (R133). -/
theorem candidate_eq_empty_iff (mod : Byte) (slots : List Byte) :
    candidate mod slots = KeySet.empty ↔ mod = 0x00#8 ∧ ∀ k ∈ slots, k = Config.EMPTY_SLOT := by
  rw [KeySet.eq_empty_iff, ← modifierCodes_eq_nil_iff, List.eq_nil_iff_forall_not_mem]
  simp only [Bool.eq_false_iff, ne_eq, has_candidate_iff, not_and, not_or]
  constructor
  · refine fun h => ⟨fun k hk => (h k ?_).1 hk, fun k hk => by_contra fun hne => (h k hne).2 hk⟩
    obtain ⟨i, -, rfl⟩ := (mem_modifierCodes mod k).mp hk
    exact modTab_ne_zero i
  · exact fun ⟨hmod, hslots⟩ k hne => ⟨hmod k, fun hk => hne (hslots k hk)⟩

/-- Settles O25: the members, the bound of 8 modifiers and 6 slots, and the empty case of the candidate set. -/
theorem candidateSet : Obligations.CandidateSet := by
  intro mod k0 k1 k2 k3 k4 k5
  refine ⟨fun k => ?_, card_candidate_le mod [k0, k1, k2, k3, k4, k5], candidate_eq_empty_iff mod [k0, k1, k2, k3, k4, k5]⟩
  rw [has_candidate_iff, mem_modifierCodes_iff]

/-- Setting bit `i` adds the translated code of `i` and no other. -/
theorem mem_modifierCodes_or_bit (mod : Byte) (i : Fin 8) (k : Byte) :
    k ∈ modifierCodes (mod ||| 1#8 <<< i.val) ↔ k ∈ modifierCodes mod ∨ k = modTab i := by
  have hbit : ∀ j : Fin 8, (mod ||| 1#8 <<< i.val).getLsbD j.val = true ↔ mod.getLsbD j.val = true ∨ j = i := by
    intro j
    rw [BitVec.getLsbD_or, Bool.or_eq_true]
    refine or_congr_right ?_
    revert i j
    decide
  simp only [mem_modifierCodes]
  constructor
  · rintro ⟨j, hj, rfl⟩
    exact ((hbit j).mp hj).imp (fun h => ⟨j, h, rfl⟩) (congrArg modTab)
  · rintro (⟨j, hj, rfl⟩ | rfl)
    · exact ⟨j, (hbit j).mpr (.inl hj), rfl⟩
    · exact ⟨i, (hbit i).mpr (.inr rfl), rfl⟩

/-- A keyboard frame's effect rests on its candidate set alone (R138). -/
theorem reconcileKeyboard_congr {mod mod' : Byte} {slots slots' : List Byte} (h : candidate mod slots = candidate mod' slots')
    (s : State) : reconcileKeyboard mod slots s = reconcileKeyboard mod' slots' s := by
  rw [reconcileKeyboard_eq, reconcileKeyboard_eq, h]

/-- Settles O26: both frames name the key `0xE0 + i`, one by its bit and one by a slot, so their candidate sets are the same. -/
theorem modifierBitIsModifierSlot : Obligations.ModifierBitIsModifierSlot := by
  intro i mod k1 k2 k3 k4 k5 s
  refine congrArg Host.Outcome.next (reconcileKeyboard_congr (candidate_congr fun k hk => ?_) s)
  have hslot : (0xE0#8 + BitVec.ofNat 8 i.val : Byte) = modTab i := rfl
  rw [mem_modifierCodes_or_bit, hslot, List.mem_cons, or_iff_right hk, or_assoc, List.mem_cons (b := modTab i)]

/-- Settles O28: the net effect of the reconciler, its three groups of commands in a row. -/
theorem keyboardFrameResult : Obligations.KeyboardFrameResult := by
  intro mod k0 k1 k2 k3 k4 k5 s
  refine congrArg Host.Outcome.next ((reconcileKeyboard_eq _ _ s).trans ?_)
  rw [keyboardCommands, ← List.append_assoc, ← List.append_assoc]
  rfl

/-- A frame with no bit set and no code in a slot wants no key. -/
theorem candidate_zeros : candidate 0x00#8 [0x00#8, 0x00#8, 0x00#8, 0x00#8, 0x00#8, 0x00#8] = KeySet.empty :=
  (candidate_eq_empty_iff _ _).mpr ⟨rfl, by simp⟩

theorem diff_empty (a : KeySet) : KeySet.diff a KeySet.empty = a := by
  apply KeySet.has_ext
  simp

/-- Settles O29: KBD.IDLE is the frame of zeros, which has no candidate, so every asserted key is released. -/
theorem idleFrameResult : Obligations.IdleFrameResult := by
  intro s
  refine ⟨?_, rfl⟩
  refine (keyboardFrameResult 0x00#8 0x00#8 0x00#8 0x00#8 0x00#8 0x00#8 0x00#8 s).trans ?_
  rw [candidate_zeros, if_pos rfl, diff_empty, List.append_assoc]
  rfl

/-- Up to 6 codes fill the slots from the front, and the remaining slots are empty (R81). -/
theorem padSlots_of_length_le {codes : List Byte} (h : codes.length ≤ Config.N_SLOTS) :
    padSlots codes = codes ++ List.replicate (Config.N_SLOTS - codes.length) Config.EMPTY_SLOT := by
  rw [padSlots, List.take_append, List.take_of_length_le h, List.take_replicate, Nat.min_eq_left (Nat.sub_le _ _)]

/-- Empty slots add no candidate. -/
theorem candidate_padSlots (mod : Byte) {codes : List Byte} (h : codes.length ≤ Config.N_SLOTS) :
    candidate mod (padSlots codes) = candidate mod codes := by
  refine candidate_congr fun k hk => or_congr_right ?_
  rw [padSlots_of_length_le h, List.mem_append, or_iff_left fun hpad => hk (List.eq_of_mem_replicate hpad)]

/-- KBD.KEYS is the keyboard frame of its padded slots (R81). -/
theorem exec_kbdKeys (mod : Byte) (codes : List Byte) (s : State) :
    exec (.kbdKeys mod codes) s =
      exec (.kbd mod (slotOf codes 0) (slotOf codes 1) (slotOf codes 2) (slotOf codes 3) (slotOf codes 4) (slotOf codes 5)) s := by
  show Host.Outcome.next (reconcileKeyboard mod (padSlots codes) s) = .next (reconcileKeyboard mod _ s)
  rw [← padSlots_eq]

/-- Settles O30: KBD.KEYS is the keyboard frame of its padded slots, and the padding adds no candidate. -/
theorem keysFormResult : Obligations.KeysFormResult := by
  intro mod codes s _ hlen
  rw [exec_kbdKeys, keyboardFrameResult, ← padSlots_eq, candidate_padSlots mod hlen]

/-- A keyboard frame releases at most the asserted keys. -/
theorem length_asc_releaseSet_le (a c : KeySet) : (KeySet.asc (releaseSet a c)).length ≤ KeySet.card a :=
  ((KeySet.asc_nodup _).subperm fun k hk => (KeySet.mem_asc a k).mpr ((mem_asc_releaseSet a c k).mp hk).1).length_le

/-- A keyboard frame has one press, and at most one release for each asserted key and a full release besides (R138). -/
theorem length_keyboardCommands (a c : KeySet) :
    1 ≤ (keyboardCommands a c).length ∧ (keyboardCommands a c).length ≤ KeySet.card a + 2 := by
  have hreleases := length_asc_releaseSet_le a c
  rw [keyboardCommands, List.length_append, List.length_append, List.length_map, List.length_singleton]
  split_ifs
  · rw [List.length_singleton]; omega
  · rw [List.length_nil]; omega

/-- Settles O31: at most 14 single releases, a full one and a press. -/
theorem keyboardCommandBound : Obligations.KeyboardCommandBound := by
  intro mod k0 k1 k2 k3 k4 k5 s hkeys
  refine ⟨_, rfl, ?_⟩
  have hcard : KeySet.card s.getAks ≤ 14 := hkeys.1
  obtain ⟨hone, hbound⟩ := length_keyboardCommands s.getAks (candidate mod [k0, k1, k2, k3, k4, k5])
  rw [reconcileKeyboard_eq, List.length_append]
  omega

/-- Settles O33: the read clears bit 0, after any write and in any state. -/
theorem keyZeroIsHardwired : Obligations.KeyZeroIsHardwired := by
  refine ⟨fun s => s.has_getAks_zero, fun s v k => ?_⟩
  rw [State.getAks_setAks, has_hardwire, ← decide_not]

end Sys2Proof.Proofs.Keyboard
end

section
/-! The statements of 42_mouse.md on whole next states (R155, R81). -/

namespace Sys2Proof.Proofs.Mouse

open Sys2Proof.Machine

/-- Settles O35: the net effect of the reconciler, with the deltas as two's-complement integers. -/
theorem mouseFrameResult : Obligations.MouseFrameResult := by
  intro buttons dx dy wheel s
  rw [exec_mouse, mouseCommands, sext8_eq_toInt, sext8_eq_toInt, sext8_eq_toInt, List.append_assoc]
  rfl

/-- Settles O38: each form is the mouse frame of its expansion; a zero mask is never pressed. -/
theorem mousePseudoForms : Obligations.MousePseudoForms := by
  refine fun dx dy m s => ⟨?_, mouseFrameResult m 0x00#8 0x00#8 0x00#8 s⟩
  refine (mouseFrameResult 0x00#8 dx dy 0x00#8 s).trans ?_
  simp

end Sys2Proof.Proofs.Mouse
end

section
/-! The whole-machine rules of 10_state.md: what changes AKS (R21) and ABM (R22). -/

namespace Sys2Proof.Proofs.Registers

open Sys2Proof.Machine

/-- A chunk that an RXBYTE closes as a frame is closed by TERM: the 32nd byte closes a longer one (R101, R74). -/
theorem eq_term_of_closes_frame {b : Byte} {s : State} (hclose : closes b s) (hframe : (classify (s.rxbuf ++ [b])).cause = none) :
    b = Config.TERM := by
  refine hclose.resolve_right fun hfull => ?_
  have hlen : (s.rxbuf ++ [b]).length = Config.RX_MAX := List.length_append.trans hfull
  exact classify_cause_of_length (hlen ▸ by decide) (hlen ▸ by decide) hframe

/-- A chunk other than a keyboard frame leaves AKS. -/
theorem getAks_chunkEffect {c : Classified} (h : ∀ mod k0 k1 k2 k3 k4 k5, c ≠ .kbd mod k0 k1 k2 k3 k4 k5) (s : State) :
    (chunkEffect c s).getAks = s.getAks := by
  cases c with
  | kbd mod k0 k1 k2 k3 k4 k5 => exact absurd rfl (h mod k0 k1 k2 k3 k4 k5)
  | mouse buttons dx dy wheel => exact Invariants.getAks_reconcileMouse buttons dx dy wheel s
  | dropLenK rest => rfl
  | dropLenM rest => rfl
  | dropTag tag rest => rfl
  | dropEmpty => rfl

/-- A chunk other than a mouse frame leaves ABM. -/
theorem getAbm_chunkEffect {c : Classified} (h : ∀ buttons dx dy wheel, c ≠ .mouse buttons dx dy wheel) (s : State) :
    (chunkEffect c s).getAbm = s.getAbm := by
  cases c with
  | kbd mod k0 k1 k2 k3 k4 k5 => exact Invariants.getAbm_reconcileKeyboard mod _ s
  | mouse buttons dx dy wheel => exact absurd rfl (h buttons dx dy wheel)
  | dropLenK rest => rfl
  | dropLenM rest => rfl
  | dropTag tag rest => rfl
  | dropEmpty => rfl

/-- An RXBYTE that changes AKS is a TERM that closes a keyboard frame (R21). -/
theorem rxbyte_of_getAks_ne {b : Byte} {s t : State} (h : exec (.rxbyte b) s = .next t) (hne : t.getAks ≠ s.getAks) :
    b = Config.TERM ∧ ∃ mod k0 k1 k2 k3 k4 k5, classify (s.rxbuf ++ [b]) = .kbd mod k0 k1 k2 k3 k4 k5 := by
  by_cases hclose : closes b s
  · cases (execRxbyte_of_closes hclose).symm.trans h
    have hkbd : ∃ mod k0 k1 k2 k3 k4 k5, classify (s.rxbuf ++ [b]) = .kbd mod k0 k1 k2 k3 k4 k5 := by
      by_contra hnone
      push Not at hnone
      exact hne (getAks_chunkEffect hnone s.memClear)
    refine ⟨eq_term_of_closes_frame hclose ?_, hkbd⟩
    obtain ⟨_, _, _, _, _, _, _, hc⟩ := hkbd
    rw [hc]; rfl
  · cases (execRxbyte_of_not_closes hclose).symm.trans h
    exact absurd (s.getAks_memPush b) hne

/-- An RXBYTE that changes ABM is a TERM that closes a mouse frame (R22). -/
theorem rxbyte_of_getAbm_ne {b : Byte} {s t : State} (h : exec (.rxbyte b) s = .next t) (hne : t.getAbm ≠ s.getAbm) :
    b = Config.TERM ∧ ∃ buttons dx dy wheel, classify (s.rxbuf ++ [b]) = .mouse buttons dx dy wheel := by
  by_cases hclose : closes b s
  · cases (execRxbyte_of_closes hclose).symm.trans h
    have hmouse : ∃ buttons dx dy wheel, classify (s.rxbuf ++ [b]) = .mouse buttons dx dy wheel := by
      by_contra hnone
      push Not at hnone
      exact hne (getAbm_chunkEffect hnone s.memClear)
    refine ⟨eq_term_of_closes_frame hclose ?_, hmouse⟩
    obtain ⟨_, _, _, _, hc⟩ := hmouse
    rw [hc]; rfl
  · cases (execRxbyte_of_not_closes hclose).symm.trans h
    exact absurd (s.getAbm_memPush b) hne

/-- Settles O40: the forms that are named reconcile the keyboard or reset it; mouse forms, drops and TIMEOUT leave AKS. -/
theorem onlyKeyboardFramesChangeAks : Obligations.OnlyKeyboardFramesChangeAks := by
  intro i s t h hne
  cases i with
  | reset => exact .inl rfl
  | kbdIdle => exact .inr (.inl rfl)
  | kbdKeys mod codes => exact .inr (.inr (.inl ⟨mod, codes, rfl⟩))
  | kbd mod k0 k1 k2 k3 k4 k5 => exact .inr (.inr (.inr (.inl ⟨mod, k0, k1, k2, k3, k4, k5, rfl⟩)))
  | rxbyte b =>
    obtain ⟨hterm, mod, k0, k1, k2, k3, k4, k5, hkbd⟩ := rxbyte_of_getAks_ne h hne
    exact .inr (.inr (.inr (.inr ⟨b, mod, k0, k1, k2, k3, k4, k5, rfl, hterm, hkbd⟩)))
  | mouse buttons dx dy wheel => cases h; exact absurd (Invariants.getAks_reconcileMouse buttons dx dy wheel s) hne
  | mouseMove dx dy => cases h; exact absurd (Invariants.getAks_reconcileMouse 0x00#8 dx dy 0x00#8 s) hne
  | mouseBtn m => cases h; exact absurd (Invariants.getAks_reconcileMouse m 0x00#8 0x00#8 0x00#8 s) hne
  | dropLenK => cases h; exact absurd s.getAks_memClear hne
  | dropLenM => cases h; exact absurd s.getAks_memClear hne
  | dropTag => cases h; exact absurd s.getAks_memClear hne
  | dropEmpty => cases h; exact absurd s.getAks_memClear hne
  | nl => cases h; exact absurd s.getAks_memClear hne
  | timeout => cases h; exact absurd s.getAks_memClear hne

/-- Settles O41: the forms that are named reconcile the mouse or reset it; keyboard forms, drops and TIMEOUT leave ABM. -/
theorem onlyMouseFramesChangeAbm : Obligations.OnlyMouseFramesChangeAbm := by
  intro i s t h hne
  cases i with
  | reset => exact .inl rfl
  | mouseMove dx dy => exact .inr (.inl ⟨dx, dy, rfl⟩)
  | mouseBtn m => exact .inr (.inr (.inl ⟨m, rfl⟩))
  | mouse buttons dx dy wheel => exact .inr (.inr (.inr (.inl ⟨buttons, dx, dy, wheel, rfl⟩)))
  | rxbyte b =>
    obtain ⟨hterm, buttons, dx, dy, wheel, hmouse⟩ := rxbyte_of_getAbm_ne h hne
    exact .inr (.inr (.inr (.inr ⟨b, buttons, dx, dy, wheel, rfl, hterm, hmouse⟩)))
  | kbd mod k0 k1 k2 k3 k4 k5 => cases h; exact absurd (Invariants.getAbm_reconcileKeyboard mod _ s) hne
  | kbdIdle => cases h; exact absurd (Invariants.getAbm_reconcileKeyboard 0x00#8 _ s) hne
  | kbdKeys mod codes => cases h; exact absurd (Invariants.getAbm_reconcileKeyboard mod _ s) hne
  | dropLenK => cases h; exact absurd s.getAbm_memClear hne
  | dropLenM => cases h; exact absurd s.getAbm_memClear hne
  | dropTag => cases h; exact absurd s.getAbm_memClear hne
  | dropEmpty => cases h; exact absurd s.getAbm_memClear hne
  | nl => cases h; exact absurd s.getAbm_memClear hne
  | timeout => cases h; exact absurd s.getAbm_memClear hne

end Sys2Proof.Proofs.Registers
end

section
/-! The statements of 20_memory.md and 70_reset_and_hazards.md on one step: the input levels, the oldest input, the command port and
RESET. -/

namespace Sys2Proof.Proofs.Step

open Sys2Proof.Machine Sys2Proof.Proofs.Invariants

/-! ### The four kinds of step as equations -/

theorem step_of_reset {s : State} (hreset : s.takePins.pins.reset = true) : step s = .next s.takePins.toReset := if_pos hreset

theorem step_of_low {s : State} (hlow : s.takePins.pins.reset = false) :
    step s = if s.applying then .next s.takePins.applyPart else acceptNext s.takePins := by
  rw [step, stepWithPins, hlow, if_neg Bool.false_ne_true, takePins_applying]

theorem step_of_applying {s : State} (hlow : s.takePins.pins.reset = false) (happ : s.applying = true) :
    step s = .next s.takePins.applyPart := by rw [step_of_low hlow, if_pos happ]

theorem step_of_accept {s : State} {x : Input} {rest : List Input} (hlow : s.takePins.pins.reset = false)
    (happ : s.applying = false) (hinbox : s.inbox = x :: rest) : step s = acceptInput x (accepting s rest) := by
  rw [step_of_low hlow, happ, if_neg Bool.false_ne_true, acceptNext, s.takePins_inbox, hinbox]
  rfl

theorem step_of_wait {s : State} (hlow : s.takePins.pins.reset = false) (happ : s.applying = false) (hinbox : s.inbox = []) :
    step s = .next s.takePins := by
  rw [step_of_low hlow, happ, if_neg Bool.false_ne_true, acceptNext, s.takePins_inbox, hinbox]

/-- An input that decodes to an instruction is accepted by running that. -/
theorem acceptInput_of_run {x : Input} {i : Instr} (hdecode : decode x = .run i) (s : State) :
    acceptInput x s = exec i (s.beginInput x) := by rw [acceptInput, hdecode]

/-- Settles O44: the step is the acceptance of the oldest input; only a whole chunk clears RXBUF before its instruction. -/
theorem stepRunsDecodedInstruction : Obligations.StepRunsDecodedInstruction := by
  intro s hlow happ
  refine ⟨fun x rest i hinbox hframe hdecode => ?event, fun f rest i hinbox hdecode => ?frame,
    fun x rest hinbox hdecode => ?nothing, step_of_wait hlow happ⟩
  case event =>
    rw [step_of_accept hlow happ hinbox, acceptInput_of_run hdecode, State.beginInput_of_not_frame hframe]
    rfl
  case frame =>
    rw [step_of_accept hlow happ hinbox, acceptInput_of_run hdecode]
    rfl
  case nothing =>
    rw [step_of_accept hlow happ hinbox, acceptInput, hdecode]
    rfl

/-! ### The input levels -/

theorem takePins_of_nil {s : State} (h : s.pinTrace = []) : s.takePins = s := by rw [State.takePins, h]

theorem takePins_of_cons {s : State} {p : Pins} {rest : List Pins} (h : s.pinTrace = p :: rest) :
    s.takePins = { s with pins := p, pinTrace := rest } := by rw [State.takePins, h]

theorem acceptResult_pins {x : Input} {s t : State} (h : AcceptResult s x t) : t.pins = s.pins := by
  cases h <;> simp [chunkEffect_eq]

theorem acceptResult_pinTrace {x : Input} {s t : State} (h : AcceptResult s x t) : t.pinTrace = s.pinTrace := by
  cases h <;> simp [chunkEffect_eq]

/-- Settles O45: after the levels are taken nothing in a step changes them or the schedule. -/
theorem inputLevelsFollowTrace : Obligations.InputLevelsFollowTrace := by
  refine ⟨fun s t h => ?_, fun s => takePins_of_nil, fun s p rest => takePins_of_cons⟩
  rw [← s.takePins_pinTrace]
  cases stepResult_of_step h with
  | reset hreset => exact ⟨rfl, rfl⟩
  | port hreset happ =>
    obtain ⟨-, -, -, -, hpins, htrace⟩ := applyPart_core s.takePins
    exact ⟨hpins, htrace⟩
  | wait hreset happ hinbox => exact ⟨rfl, rfl⟩
  | accept x rest t hreset happ hinbox haccept =>
    exact ⟨acceptResult_pins (s := accepting s rest) haccept, acceptResult_pinTrace (s := accepting s rest) haccept⟩

/-! ### The command port -/

theorem applying_of_port {s : State} {c : Command} (h : s.port = some c) : s.applying = true := by rw [State.applying, h]; rfl

theorem applying_of_cmdq {s : State} {c : Command} {rest : List Command} (h : s.cmdq = c :: rest) : s.applying = true := by
  rw [State.applying, h]
  exact Bool.or_true _

/-- The command on the port waits while `cmd_ready` is low (R188). -/
theorem applyPart_of_stalled {s : State} {c : Command} (hport : s.port = some c) (hready : s.pins.cmdReady = false) :
    s.applyPart = s := by rw [State.applyPart, hport, hready]; rfl

/-- The command on the port completes when `cmd_ready` is high (R48). -/
theorem applyPart_of_ready {s : State} {c : Command} (hport : s.port = some c) (hready : s.pins.cmdReady = true) :
    s.applyPart = s.complete := by rw [State.applyPart, hport, hready]; rfl

/-- With the port free the next command is presented (R49). -/
theorem applyPart_of_free {s : State} {c : Command} {rest : List Command} (hport : s.port = none) (hcmdq : s.cmdq = c :: rest) :
    s.applyPart = s.present c rest := by rw [State.applyPart, hport, hcmdq]

/-- Settles O46: the three moves of the port, with the levels of the step. -/
theorem commandPortStep : Obligations.CommandPortStep := by
  refine ⟨fun s => ⟨fun c hport => ?driven, fun hport => ?idle⟩, fun s hlow => ⟨fun c hport hready => ?stalled,
    fun c hport hready => ?ready, fun c rest hport hcmdq => ?free⟩⟩
  case driven => rw [State.cmdValid, State.cmdLines, hport]; exact ⟨rfl, rfl⟩
  case idle => rw [State.cmdValid, State.cmdLines, hport]; exact ⟨rfl, rfl⟩
  case stalled =>
    rw [step_of_applying hlow (applying_of_port hport), applyPart_of_stalled (s.takePins_port.trans hport) hready]
  case ready =>
    rw [step_of_applying hlow (applying_of_port hport), applyPart_of_ready (s.takePins_port.trans hport) hready]
    rfl
  case free =>
    rw [step_of_applying hlow (applying_of_cmdq hcmdq),
      applyPart_of_free (s.takePins_port.trans hport) (s.takePins_cmdq.trans hcmdq), ← s.takePins_hidOut, ← s.takePins_hid]
    rfl

/-- Settles O47: of the kinds of step only the acceptance of the oldest input changes the inbox. -/
theorem inputsTakenOnlyWhenReady : Obligations.InputsTakenOnlyWhenReady := by
  intro s t h hne
  cases stepResult_of_step h with
  | reset hreset => exact absurd s.takePins_inbox hne
  | port hreset happ =>
    obtain ⟨-, -, -, hinbox, -, -⟩ := applyPart_core s.takePins
    exact absurd (hinbox.trans s.takePins_inbox) hne
  | wait hreset happ hinbox => exact absurd s.takePins_inbox hne
  | accept x rest t hreset happ hinbox haccept =>
    refine ⟨?_, x, ?_⟩
    · rw [State.rxReady, hreset, takePins_applying, happ]; rfl
    · rw [acceptResult_inbox haccept, accepting_inbox, hinbox]

/-- What a step adds to the output is one command or none (log 3). -/
theorem hidOut_applyPart (s : State) : ∃ new, s.applyPart.hidOut = s.hidOut ++ new ∧ new.length ≤ 1 := by
  cases happ : s.applying with
  | false =>
    rw [applyPart_of_not_applying happ]
    exact ⟨[], (List.append_nil _).symm, Nat.zero_le _⟩
  | true =>
    obtain ⟨_, -, -, e⟩ | ⟨_, -, -, e⟩ | ⟨c, _, -, -, e⟩ := applyPart_cases happ
    · exact ⟨[], (congrArg State.hidOut e).trans (List.append_nil _).symm, Nat.zero_le _⟩
    · exact ⟨[], (congrArg State.hidOut e).trans (List.append_nil _).symm, Nat.zero_le _⟩
    · exact ⟨[c], congrArg State.hidOut e, Nat.le_refl _⟩

theorem acceptResult_hidOut {x : Input} {s t : State} (h : AcceptResult s x t) : t.hidOut = s.hidOut := by
  cases h <;> simp [chunkEffect_eq]

/-- An accepted input only adds to the commands to come; RESET finds none outside the apply part. -/
theorem acceptResult_cmdq {x : Input} {s t : State} (happ : s.applying = false) (h : AcceptResult s x t) :
    ∃ more, t.cmdq = s.cmdq ++ more := by
  have hchunk : ∀ c, ∃ more, (chunkEffect c s.memClear).cmdq = s.cmdq ++ more := fun c => ⟨_, by rw [chunkEffect_eq]; rfl⟩
  have hsame : ∃ more, s.cmdq = s.cmdq ++ more := ⟨[], (List.append_nil _).symm⟩
  cases h with
  | store b hstore => exact hsame
  | close b hclose => exact hchunk _
  | timeout => exact hsame
  | reset =>
    obtain ⟨-, hcmdq⟩ := (applying_eq_false_iff s).mp happ
    exact ⟨[], by rw [hcmdq]; rfl⟩
  | frame f hlen => exact hchunk _
  | noFrame => exact hsame

/-- Settles O51: only the port writes the output, by what it takes from the commands to come; accepted inputs add to these. -/
theorem emittedCommandsStay : Obligations.EmittedCommandsStay := by
  intro s t h
  have hout : ∃ new, s.takePins.hidOut = s.hidOut ++ new ∧ new.length ≤ 1 :=
    ⟨[], s.takePins_hidOut.trans (List.append_nil _).symm, Nat.zero_le _⟩
  have hsame : ∃ more, s.takePins.hidOut ++ s.takePins.cmdq = s.hidOut ++ s.cmdq ++ more :=
    ⟨[], (sameView_takePins s).commands.trans (List.append_nil _).symm⟩
  cases stepResult_of_step h with
  | reset hreset => exact ⟨hout, fun hlow => absurd (hreset.symm.trans hlow) Bool.true_eq_false.mp⟩
  | port hreset happ => exact ⟨s.takePins_hidOut ▸ hidOut_applyPart s.takePins, fun _ => applyPart_commands s.takePins ▸ hsame⟩
  | wait hreset happ hinbox => exact ⟨hout, fun _ => hsame⟩
  | accept x rest t hreset happ hinbox haccept =>
    have hhid : t.hidOut = s.hidOut := (acceptResult_hidOut haccept).trans s.takePins_hidOut
    refine ⟨⟨[], hhid.trans (List.append_nil _).symm, Nat.zero_le _⟩, fun _ => ?_⟩
    have haccepting : (accepting s rest).applying = false := (takePins_applying s).trans happ
    obtain ⟨more, hmore⟩ := acceptResult_cmdq haccepting haccept
    have hcmdq : t.cmdq = s.cmdq ++ more := s.takePins_cmdq ▸ hmore
    exact ⟨more, by rw [hhid, hcmdq, List.append_assoc]⟩

/-! ### RESET -/

/-- What RESET leaves, with AKS as the empty set and no hardwired bit to clear (R200). -/
theorem toReset_eq (s : State) :
    s.toReset = { s with aks := KeySet.empty, abm := 0x00#8, rxbuf := [], cmdq := [], port := none } := by
  rw [State.toReset, State.setAks, hardwire_empty]
  rfl

/-- Settles O48: RESET is the same write of the state whether it comes as an event or as a level. -/
theorem resetEffect : Obligations.ResetEffect := by
  refine ⟨fun s => congrArg Host.Outcome.next (toReset_eq s), fun s hreset => ?_⟩
  rw [step_of_reset hreset, toReset_eq]

/-- Settles O49: AKS reads as the empty set, and the other parts are the literal values of the reset state. -/
theorem stateAfterReset : Obligations.StateAfterReset := by
  have haks : State.reset.getAks = KeySet.empty := hardwire_empty
  exact ⟨fun k => haks ▸ KeySet.has_empty k, rfl, rfl, rfl, rfl, rfl⟩

end Sys2Proof.Proofs.Step
end

section
/-! The statement of 20_memory.md on the lines of the command port (R48). -/

namespace Sys2Proof.Proofs.Ports

open Sys2Proof.Machine

/-- The byte on a motion line has the motion as its signed reading (R9, R48). -/
theorem toInt_pat8 {v : Int} (h : isSigned8 v) : (pat8 v).toInt = v := by rw [← sext8_eq_toInt, sext8_pat8 h]

/-- The lines of a legal command carry it: of the payloads only a motion is recoded, and its range makes that lossless. -/
theorem command?_lines {c : Command} (hc : c.legal) : c.lines.command? = some c := by
  cases c with
  | kbdPress s => rfl
  | kbdRelease k => rfl
  | kbdReleaseAll => rfl
  | mouseMove x y w =>
    obtain ⟨hx, hy, hw⟩ := hc
    show some (Command.mouseMove (sext8 (pat8 x)) (sext8 (pat8 y)) (sext8 (pat8 w))) = _
    rw [sext8_pat8 hx, sext8_pat8 hy, sext8_pat8 hw]
  | mousePress m => rfl
  | mouseReleaseAll => rfl

/-- `cmd_op` is none of the two values that are never driven, and its bit 2 is the device (R48). -/
theorem op_lines (c : Command) :
    c.lines.op ≠ 0b000#3 ∧ c.lines.op ≠ 0b100#3 ∧ c.lines.op.getLsbD 2 = !c.isKeyboard := by
  cases c <;> simp [Command.lines, Command.isKeyboard]

/-- Settles O7: the lines of a command give it back, and row by row they are those of the table. -/
theorem commandLinesRoundTrip : Obligations.CommandLinesRoundTrip := by
  refine ⟨fun c hc => ⟨command?_lines hc, op_lines c⟩, fun S hS => ⟨S, rfl, hS.1, fun _ => rfl⟩, fun _ => rfl, rfl, ?motion,
    fun _ => rfl, rfl⟩
  case motion =>
    rintro x y w ⟨hx, hy, hw⟩
    exact ⟨_, _, _, rfl, toInt_pat8 hx, toInt_pat8 hy, toInt_pat8 hw⟩

end Sys2Proof.Proofs.Ports
end

section
/-! The statements of 43_hid_shadow.md on frames: keyboard agreement and its repair (R173), mouse agreement and its repair (R174). -/

namespace Sys2Proof.Proofs.HidShadow

open Sys2Proof.Machine

/-- Settles O54: the press by the reading of the environment, the other commands outright. -/
theorem mouseCommandsOnHidLayer : Obligations.MouseCommandsOnHidLayer := by
  intro h S k m x y w
  refine ⟨fun hreading => ?_, fun hreading => ?_, rfl, rfl, rfl, rfl, rfl⟩
  · rw [HidShadow.act, hreading]; rfl
  · rw [HidShadow.act, hreading]; rfl

/-! ### Keyboard agreement -/

/-- The reaction to a keyboard frame given whole (R105, R130). -/
theorem react_kbdFrame (mod k0 k1 k2 k3 k4 k5 last : Byte) (s : State) :
    react (.frame [Config.KBD_TAG, mod, k0, k1, k2, k3, k4, k5, last]) s =
      .next (reconcileKeyboard mod [k0, k1, k2, k3, k4, k5] s.memClear).flush :=
  react_frame s (Nat.le_of_ble_eq_true rfl)

/-- What the HID layer is once a keyboard frame's commands, and those before it, are out. -/
theorem hid_flush_reconcileKeyboard (mod : Byte) (slots : List Byte) (s : State) :
    (reconcileKeyboard mod slots s).flush.hid =
      (s.hid.actAll s.cmdq).actAll (keyboardCommands s.getAks (candidate mod slots)) := by
  rw [State.flush_hid, reconcileKeyboard_eq, actAll_append]

/-- An idle frame's commands empty HK from any HK (R173). -/
theorem keys_actAll_idleCommands (h : HidShadow) (a : KeySet) : (h.actAll (keyboardCommands a KeySet.empty)).keys = KeySet.empty := by
  apply KeySet.has_ext
  intro k
  rw [has_actAll_keyboardCommands, KeySet.has_empty]
  rfl

/-- A key that is pressed at the HID layer, but not asserted, is still pressed after a frame that wants a key (R173). -/
theorem has_keys_of_stuck {h : HidShadow} {a c : KeySet} {stuck : Byte} (hc : c ≠ KeySet.empty)
    (hpressed : KeySet.has h.keys stuck = true) (hasserted : KeySet.has a stuck = false) :
    KeySet.has (h.actAll (keyboardCommands a c)).keys stuck = true := by
  rw [has_actAll_keyboardCommands, decide_eq_true hc, hpressed, hasserted]
  exact Bool.or_true _

/-- Settles O56: the full release of an idle frame repairs HK; a frame that wants a key releases asserted keys only. -/
theorem idleFrameRepairsHidLayer : Obligations.IdleFrameRepairsHidLayer := by
  constructor
  · intro s
    refine ⟨_, react_kbdFrame 0x00#8 0x00#8 0x00#8 0x00#8 0x00#8 0x00#8 0x00#8 0x0A#8 { s with cmdq := [] }, ?_, ?_⟩
    · rw [hid_flush_reconcileKeyboard, Keyboard.candidate_zeros, keys_actAll_idleCommands]
    · rw [State.getAks_flush, getAks_reconcileKeyboard, Keyboard.candidate_zeros]
  · intro s mod k0 k1 k2 k3 k4 k5 stuck hcmdq hc hpressed hasserted
    refine ⟨_, react_kbdFrame mod k0 k1 k2 k3 k4 k5 0x0A#8 s, ?_⟩
    rw [hid_flush_reconcileKeyboard, State.memClear_cmdq, hcmdq]
    exact has_keys_of_stuck hc hpressed hasserted

/-- Releases press no key. -/
theorem has_keys_actAll_releases {h : HidShadow} {k : Byte} (hk : KeySet.has h.keys k = false) (ks : List Byte) :
    KeySet.has (h.actAll (ks.map Command.kbdRelease)).keys k = false := by
  rw [actAll_releases, KeySet.has_diff, hk, Bool.false_and]

/-- Part of the commands of a frame that wants a key is part of its single releases, or all of them (R135, R137). -/
theorem take_keyboardCommands {c : KeySet} (hc : c ≠ KeySet.empty) (a : KeySet) (n : Nat) :
    (∃ ks : List Byte, (keyboardCommands a c).take n = ks.map Command.kbdRelease) ∨
      (keyboardCommands a c).take n = keyboardCommands a c := by
  have hshape : keyboardCommands a c = (KeySet.asc (releaseSet a c)).map Command.kbdRelease ++ [Command.kbdPress c] := by
    rw [keyboardCommands, if_neg hc, List.nil_append]
  by_cases hn : n ≤ ((KeySet.asc (releaseSet a c)).map Command.kbdRelease).length
  · exact .inl ⟨(KeySet.asc (releaseSet a c)).take n, by rw [hshape, List.take_append_of_le_length hn, List.map_take]⟩
  · refine .inr (List.take_of_length_le ?_)
    rw [hshape, List.length_append, List.length_singleton]
    omega

/-- Settles O57: the press comes last. Before it no new key is pressed, and after it no key that was to be released is. -/
theorem releasedAndPressedNeverTogether : Obligations.ReleasedAndPressedNeverTogether := by
  intro mod k0 k1 k2 k3 k4 k5 s hcmdq hagree
  refine ⟨_, rfl, ?_⟩
  rw [getAks_reconcileKeyboard, reconcileKeyboard_eq, hcmdq, List.nil_append]
  generalize candidate mod [k0, k1, k2, k3, k4, k5] = c
  rintro n old new hold hgone hnew hfresh ⟨holdPressed, hnewPressed⟩
  have hc : c ≠ KeySet.empty := by
    rintro rfl
    rw [KeySet.has_empty] at hnew
    cases hnew
  obtain ⟨ks, hreleases⟩ | hall := take_keyboardCommands hc s.getAks n
  · rw [hreleases, has_keys_actAll_releases (hagree ▸ hfresh)] at hnewPressed
    cases hnewPressed
  · rw [hall, has_actAll_keyboardCommands, hgone, hagree, hold] at holdPressed
    simp at holdPressed

/-- A set made from a list does not depend on the list's order. -/
theorem ofList_perm {ks ks' : List Byte} (h : ks.Perm ks') : KeySet.ofList ks = KeySet.ofList ks' :=
  Keyboard.slotSet_eq_of_mem_iff fun _ => h.mem_iff

/-- Settles O58: single releases take their set of keys out of HK, and the set has no order. -/
theorem releaseOrderDoesNotMatter : Obligations.ReleaseOrderDoesNotMatter := by
  intro h ks ks' rest hperm
  rw [actAll_append, actAll_append, actAll_releases, actAll_releases, ofList_perm hperm]

/-! ### Mouse agreement -/

/-- A new non-zero mask acts on HB by the reading of a press (R153, R172). -/
theorem buttons_actAll_of_press (h : HidShadow) {abm m : Byte} (hm : m ≠ 0x00#8) (hne : m ≠ abm) (dx dy wheel : Byte) :
    (h.actAll (mouseCommands abm m dx dy wheel)).buttons = mousePressEffect h.reading h.buttons m := by
  rw [mouseCommands, if_pos ⟨hm, hne⟩]
  rfl

/-- A zero mask where ABM is not clears HB (R153, R172). -/
theorem buttons_actAll_of_release (h : HidShadow) {abm : Byte} (habm : abm ≠ 0x00#8) (dx dy wheel : Byte) :
    (h.actAll (mouseCommands abm 0x00#8 dx dy wheel)).buttons = 0x00#8 := by
  rw [mouseCommands, if_neg (fun h => h.1 rfl), if_pos ⟨rfl, habm⟩]
  rfl

/-- The mask that is in ABM already leaves HB (R153). -/
theorem buttons_actAll_of_unchanged (h : HidShadow) (m dx dy wheel : Byte) :
    (h.actAll (mouseCommands m m dx dy wheel)).buttons = h.buttons := by
  rw [mouseCommands, if_neg (fun h => h.2 rfl), if_neg (fun h => h.2 h.1)]
  rfl

/-- Settles O59: the three rows of the button table that act differently, the press under each of its two readings. -/
theorem mouseAgreementInPart : Obligations.MouseAgreementInPart := by
  intro m dx dy wheel s hcmdq hagree
  refine ⟨_, Mouse.exec_mouse m dx dy wheel s, rfl, ?_⟩
  dsimp only
  rw [hcmdq, List.nil_append]
  by_cases hsame : m = s.getAbm
  · have hbuttons : (s.hid.actAll (mouseCommands s.getAbm m dx dy wheel)).buttons = m := by
      rw [← hsame, buttons_actAll_of_unchanged, hagree, hsame]
    exact ⟨fun _ _ => hbuttons, fun _ hchange => absurd hsame hchange.2.2, fun _ => hbuttons⟩
  · by_cases hzero : m = 0x00#8
    · subst hzero
      have hbuttons := buttons_actAll_of_release s.hid (Ne.symm hsame) dx dy wheel
      exact ⟨fun _ _ => hbuttons, fun _ hchange => absurd rfl hchange.1, fun _ => hbuttons⟩
    · rw [buttons_actAll_of_press s.hid hzero hsame, hagree]
      refine ⟨fun hreading hkept => ?_, fun hreading _ => by rw [hreading]; rfl, fun hreading => by rw [hreading]; rfl⟩
      have habm : s.getAbm = 0x00#8 := by_contra fun hne => hkept ⟨hzero, hne, hsame⟩
      rw [hreading, habm]
      exact BitVec.zero_or

/-- Settles O60: the frame's button command is the release-all, which no reading of a press touches. -/
theorem releaseFrameRepairsButtons : Obligations.ReleaseFrameRepairsButtons := by
  intro dx dy wheel s hcmdq habm
  refine ⟨_, Mouse.exec_mouse 0x00#8 dx dy wheel s, rfl, ?_⟩
  dsimp only
  rw [hcmdq, List.nil_append]
  exact buttons_actAll_of_release s.hid habm dx dy wheel

end Sys2Proof.Proofs.HidShadow
end

section
/-! The statements of 40_frame_reader.md and 70_reset_and_hazards.md on sequences of port events: lines, noise, split frames and
TIMEOUT inside a frame. -/

namespace Sys2Proof.Proofs.ByteStream

open Sys2Proof.Machine

theorem closes_iff (b : Byte) (s : State) : closes b s ↔ b = Config.TERM ∨ (s.rxbuf ++ [b]).length = Config.RX_MAX := by
  rw [closes, ← FrameReader.rxlen_memPush s b]
  rfl

theorem overPort_append (f g : List Byte) : overPort (f ++ g) = overPort f ++ overPort g := List.map_append

theorem reactAll_cons_of_next {x : Input} {s t : State} (h : react x s = .next t) (xs : List Input) :
    reactAll (x :: xs) s = reactAll xs t := by rw [reactAll, h]

theorem reactAll_append_of_next {xs : List Input} {s t : State} (h : reactAll xs s = .next t) (ys : List Input) :
    reactAll (xs ++ ys) s = reactAll ys t := by rw [reactAll_append, h]

/-! ### One chunk, byte by byte -/

/-- Bytes that close no chunk and then one that does have the effect of the chunk (R101). -/
theorem reactAll_overPort_chunk {g : List Byte} {b : Byte} {s : State} (hg : Config.TERM ∉ g)
    (hroom : s.rxbuf.length + g.length < Config.RX_MAX) (hb : b = Config.TERM ∨ s.rxbuf.length + g.length + 1 = Config.RX_MAX) :
    reactAll (overPort (g ++ [b])) s = .next (chunkEffect (classify (s.rxbuf ++ g ++ [b])) s.memClear).flush := by
  induction g generalizing s with
  | nil =>
    rw [List.append_nil]
    exact reactAll_cons_of_next (react_rxbyte_of_closes hb) []
  | cons a g ih =>
    obtain ⟨ha, hg⟩ := not_or.mp (List.mem_cons.not.mp hg)
    rw [List.length_cons] at hroom hb
    have hstore : ¬ closes a s := by
      refine not_or.mpr ⟨Ne.symm ha, ?_⟩
      rw [State.rxlen]
      omega
    have hpush : (s.memPush a).flush.rxbuf.length = s.rxbuf.length + 1 := List.length_append
    refine (reactAll_cons_of_next (react_rxbyte_of_not_closes hstore) _).trans ?_
    refine (ih hg (by omega) (hb.imp_right fun hfull => by omega)).trans ?_
    show Host.Outcome.next (chunkEffect (classify (s.rxbuf ++ [a] ++ g ++ [b])) s.memClear.flush).flush = _
    rw [chunkEffect_flush, List.append_assoc s.rxbuf [a] g, List.singleton_append]

/-- At a chunk boundary those bytes have the reaction of the chunk given whole (R105). -/
theorem reactAll_overPort_eq_react_frame {g : List Byte} {b : Byte} {s : State} (hbuf : s.rxbuf = []) (hg : Config.TERM ∉ g)
    (hlen : g.length < Config.RX_MAX) (hb : b = Config.TERM ∨ g.length + 1 = Config.RX_MAX) :
    reactAll (overPort (g ++ [b])) s = react (.frame (g ++ [b])) s := by
  have hchunk : (g ++ [b]).length ≤ Config.RX_MAX := by
    rw [List.length_append]
    exact hlen
  have hzero : s.rxbuf.length + g.length = g.length := by rw [hbuf, List.length_nil, Nat.zero_add]
  rw [reactAll_overPort_chunk hg (by rwa [hzero]) (by rwa [hzero]), react_frame s hchunk, hbuf, List.nil_append]

/-- Settles O17: a line that fits below the cut is closed by its terminator. -/
theorem lineIsOneChunk : Obligations.LineIsOneChunk := fun _ _ hlen hg hbuf =>
  reactAll_overPort_eq_react_frame hbuf (fun hmem => hg _ hmem rfl) (Nat.lt_succ_of_le hlen) (.inl rfl)

/-! ### Chunks that are dropped -/

/-- Between chunks and between steps: nothing is received, and nothing is to be emitted (R53, R106). -/
structure AtBoundary (s : State) : Prop where
  rxbuf : s.rxbuf = []
  applying : s.applying = false

/-- A chunk with a drop label changes nothing at a boundary (R104). -/
theorem react_frame_of_cause {f : List Byte} {s : State} (hs : AtBoundary s) (hlen : f.length ≤ Config.RX_MAX)
    (hcause : (classify f).cause ≠ none) : react (.frame f) s = .next s := by
  rw [react_frame s hlen, State.memClear_eq_self hs.rxbuf, chunkEffect_of_cause_of_nil hcause hs.rxbuf, flush_eq_self hs.applying]

/-- A chunk leaves a boundary (R106). -/
theorem atBoundary_chunkEffect_flush (c : Classified) (s : State) : AtBoundary (chunkEffect c s.memClear).flush :=
  ⟨(chunkEffect_rxbuf c s.memClear).trans (chunkRxbuf_memClear c s), rfl⟩

/-- A dropped chunk that arrives at a boundary byte by byte leaves no trace for what follows. -/
theorem reactAll_overPort_of_cause {g : List Byte} {b : Byte} {s : State} (hs : AtBoundary s) (hg : Config.TERM ∉ g)
    (hlen : g.length < Config.RX_MAX) (hb : b = Config.TERM ∨ g.length + 1 = Config.RX_MAX)
    (hcause : (classify (g ++ [b])).cause ≠ none) (xs : List Input) : reactAll (overPort (g ++ [b]) ++ xs) s = reactAll xs s := by
  refine reactAll_append_of_next ?_ xs
  rw [reactAll_overPort_eq_react_frame hs.rxbuf hg hlen hb]
  refine react_frame_of_cause hs ?_ hcause
  rw [List.length_append]
  exact hlen

/-- Settles O18: each 32 bytes of the noise are a chunk of a length that no frame has, so it is dropped. -/
theorem alignedNoiseIsInvisible : Obligations.AlignedNoiseIsInvisible := by
  intro n noise xs s hlen hnoise hbuf happ
  induction n generalizing noise with
  | zero =>
    rw [List.length_eq_zero_iff.mp hlen]
    rfl
  | succ n ih =>
    obtain ⟨g, b, rest, rfl, hg⟩ : ∃ g b rest, noise = g ++ b :: rest ∧ g.length = 31 := by
      obtain ⟨b, rest, hdrop⟩ := List.exists_cons_of_length_pos (l := noise.drop 31) (by rw [List.length_drop]; omega)
      exact ⟨noise.take 31, b, rest, by rw [← hdrop, List.take_append_drop], by rw [List.length_take]; omega⟩
    have hchunk : (g ++ [b]).length = 32 := by rw [List.length_append, hg, List.length_singleton]
    have hcause : (classify (g ++ [b])).cause ≠ none := classify_cause_of_length (hchunk ▸ by decide) (hchunk ▸ by decide)
    have hterm : Config.TERM ∉ g := fun hmem => hnoise _ (List.mem_append_left _ hmem) rfl
    rw [List.append_cons, overPort_append, List.append_assoc,
      reactAll_overPort_of_cause ⟨hbuf, happ⟩ hterm (by rw [hg]; decide) (.inr (by rw [hg])) hcause]
    refine ih rest ?_ fun c hc => hnoise c (List.mem_append_right _ (List.mem_cons_of_mem _ hc))
    rw [List.length_append, List.length_cons] at hlen
    omega

/-! ### Frames split by an embedded TERM -/

/-- A piece that ends at the first TERM, and has the length of no frame, is dropped (R205). -/
theorem reactAll_overPort_piece {p : List Byte} {s : State} (hs : AtBoundary s) (hp : Config.TERM ∉ p)
    (hlen : p.length < Config.RX_MAX) (hcause : (classify (p ++ [Config.TERM])).cause ≠ none) (rest : List Byte) :
    reactAll (overPort (p ++ Config.TERM :: rest)) s = reactAll (overPort rest) s := by
  rw [List.append_cons, overPort_append]
  exact reactAll_overPort_of_cause hs hp hlen (.inl rfl) hcause _

/-- A piece of fewer than five bytes and its TERM is no frame. -/
theorem cause_of_short_piece {p : List Byte} (hlen : p.length ≤ 4) : (classify (p ++ [Config.TERM])).cause ≠ none := by
  have hpiece : (p ++ [Config.TERM]).length ≤ 5 := by
    rw [List.length_append]
    exact Nat.succ_le_succ hlen
  refine classify_cause_of_length ?_ ?_
  · rw [kbd_len_eq]; omega
  · rw [mouse_len_eq]; omega

/-- Bytes that TERMs cut into pieces of fewer than five have no effect. -/
theorem reactAll_overPort_short {g : List Byte} {s : State} (hs : AtBoundary s) (hlen : g.length ≤ 4) :
    reactAll (overPort (g ++ [Config.TERM])) s = .next s := by
  by_cases hmem : Config.TERM ∈ g
  · obtain ⟨p, q, hsplit, hp⟩ := List.eq_append_cons_of_mem hmem
    have hlengths : g.length = p.length + (q.length + 1) := by rw [hsplit, List.length_append, List.length_cons]
    have hroom : p.length < Config.RX_MAX := by rw [rx_max_eq]; omega
    rw [hsplit, List.append_assoc, List.cons_append,
      reactAll_overPort_piece hs hp hroom (cause_of_short_piece (by omega))]
    exact reactAll_overPort_short hs (by omega)
  · have hroom : g.length < Config.RX_MAX := by rw [rx_max_eq]; omega
    exact reactAll_overPort_piece hs hmem hroom (cause_of_short_piece hlen) []
termination_by g.length
decreasing_by omega

/-- A TERM among the bytes `mid` has no effect, when no piece that ends at it is a frame and fewer than five bytes follow it. -/
theorem reactAll_overPort_split {pre mid post : List Byte} {s : State} (hs : AtBoundary s) (hpre : Config.TERM ∉ pre)
    (hmem : Config.TERM ∈ mid) (hroom : pre.length + mid.length ≤ Config.RX_MAX)
    (hcause : ∀ p : List Byte, p.length < mid.length → (classify (pre ++ p ++ [Config.TERM])).cause ≠ none)
    (hrest : mid.length + post.length ≤ 5) : reactAll (overPort (pre ++ mid ++ post ++ [Config.TERM])) s = .next s := by
  obtain ⟨p, q, rfl, hp⟩ := List.eq_append_cons_of_mem hmem
  rw [List.length_append, List.length_cons] at hroom hrest
  have hbytes : pre ++ (p ++ Config.TERM :: q) ++ post ++ [Config.TERM] =
      (pre ++ p) ++ Config.TERM :: ((q ++ post) ++ [Config.TERM]) := by simp
  rw [hbytes, reactAll_overPort_piece hs (fun h => (List.mem_append.mp h).elim hpre hp) (by rw [List.length_append]; omega)
    (hcause p (by rw [List.length_append, List.length_cons]; omega))]
  exact reactAll_overPort_short hs (by rw [List.length_append]; omega)

/-- Five bytes and a TERM are a mouse frame, or have no effect. -/
theorem reactAll_overPort_five {s : State} (hs : AtBoundary s) (a b c d e : Byte) :
    reactAll (overPort [a, b, c, d, e, 0x0A#8]) s =
      if a = 0x20#8 ∧ 0x0A#8 ∉ [b, c, d, e] then react (.frame [0x20#8, b, c, d, e, 0x0A#8]) s else .next s := by
  by_cases hmem : 0x0A#8 ∈ [a, b, c, d, e]
  · have hnone : ¬(a = 0x20#8 ∧ 0x0A#8 ∉ [b, c, d, e]) := by
      rintro ⟨rfl, hfields⟩
      exact hfields (List.mem_of_ne_of_mem (by decide) hmem)
    rw [if_neg hnone]
    exact reactAll_overPort_split (pre := []) (post := []) hs List.not_mem_nil hmem (Nat.le_of_ble_eq_true rfl)
      (fun p hp => cause_of_short_piece (Nat.le_of_lt_succ hp)) (Nat.le_refl _)
  · refine (reactAll_overPort_eq_react_frame (g := [a, b, c, d, e]) hs.rxbuf hmem (Nat.le_of_ble_eq_true rfl) (.inl rfl)).trans ?_
    by_cases htag : a = 0x20#8
    · subst htag
      rw [if_pos ⟨rfl, fun hfields => hmem (List.mem_cons_of_mem _ hfields)⟩]
      rfl
    · rw [if_neg fun h => htag h.1]
      refine react_frame_of_cause hs (Nat.le_of_ble_eq_true rfl) (Encoding.classify_cause_of_misfit ?_ fun h => htag h.1)
      exact fun h => absurd h.2 (by simp)

/-- The empty line at a boundary has no effect (R208). -/
theorem reactAll_append_term {xs : List Input} {s t : State} (h : reactAll xs s = .next t) (ht : AtBoundary t) :
    reactAll (xs ++ overPort [Config.TERM]) s = .next t :=
  (reactAll_append_of_next h _).trans (reactAll_overPort_short (g := []) ht (Nat.zero_le _))

/-- Five bytes, a TERM and an empty line: as without the empty line. -/
theorem reactAll_overPort_five_term {s : State} (hs : AtBoundary s) (a b c d e : Byte) :
    reactAll (overPort [a, b, c, d, e, 0x0A#8, 0x0A#8]) s = reactAll (overPort [a, b, c, d, e, 0x0A#8]) s := by
  have hfive := reactAll_overPort_five hs a b c d e
  split_ifs at hfive with hmouse
  · rw [react_frame s (Nat.le_of_ble_eq_true rfl)] at hfive
    exact (reactAll_append_term hfive (atBoundary_chunkEffect_flush _ s)).trans hfive.symm
  · exact (reactAll_append_term hfive hs).trans hfive.symm

/-- Six bytes and a TERM have no effect, but for two shapes in which a TERM leaves a mouse frame of the others (log 22). -/
theorem reactAll_overPort_six {s : State} (hs : AtBoundary s) (k0 k1 k2 k3 k4 k5 : Byte) :
    reactAll (overPort [k0, k1, k2, k3, k4, k5, 0x0A#8]) s =
      if k0 = 0x0A#8 ∧ k1 = 0x20#8 ∧ 0x0A#8 ∉ [k2, k3, k4, k5] then react (.frame [0x20#8, k2, k3, k4, k5, 0x0A#8]) s
      else if k0 = 0x20#8 ∧ k5 = 0x0A#8 ∧ 0x0A#8 ∉ [k1, k2, k3, k4] then react (.frame [0x20#8, k1, k2, k3, k4, 0x0A#8]) s
      else .next s := by
  by_cases h0 : k0 = 0x0A#8
  · subst h0
    refine (reactAll_overPort_piece (p := []) hs List.not_mem_nil (by decide) (cause_of_short_piece (Nat.zero_le _)) _).trans ?_
    rw [reactAll_overPort_five hs]
    simp
  rw [if_neg fun h => h0 h.1]
  by_cases h5 : k5 = 0x0A#8
  · subst h5
    rw [reactAll_overPort_five_term hs, reactAll_overPort_five hs]
    simp
  rw [if_neg fun h => h5 h.2.1]
  by_cases hmem : 0x0A#8 ∈ [k1, k2, k3, k4]
  · exact reactAll_overPort_split (pre := [k0]) (post := [k5]) hs (by simpa using Ne.symm h0) hmem (Nat.le_of_ble_eq_true rfl)
      (fun p hp => cause_of_short_piece (p := k0 :: p) hp) (Nat.le_refl _)
  · have hnone : 0x0A#8 ∉ [k0] ++ [k1, k2, k3, k4] ++ [k5] :=
      List.not_mem_append (List.not_mem_append (by simpa using Ne.symm h0) hmem) (by simpa using Ne.symm h5)
    have hcause : (classify [k0, k1, k2, k3, k4, k5, Config.TERM]).cause ≠ none :=
      classify_cause_of_length (by simp) (by simp)
    exact reactAll_overPort_piece (p := [k0, k1, k2, k3, k4, k5]) hs hnone (Nat.le_of_ble_eq_true rfl) hcause []

/-- A piece that begins with the keyboard tag and is no longer than eight bytes is dropped (R76). -/
theorem cause_of_kbd_piece {rest : List Byte} (hlen : rest.length < 8) : (classify (Config.KBD_TAG :: rest)).cause ≠ none := by
  rw [classify_dropLenK (by rw [kbd_len_eq]; omega)]
  exact Option.some_ne_none _

/-- Settles O19: by the place of the first TERM. Behind it stand six bytes, five, or fewer, and the terminator. -/
theorem splitFrameOutcomes : Obligations.SplitFrameOutcomes := by
  constructor
  · intro buttons dx dy wheel s hbuf happ hmem
    rw [reactAll_overPort_five ⟨hbuf, happ⟩, if_neg fun h => h.2 hmem]
  · intro mod k0 k1 k2 k3 k4 k5 s hbuf happ hmem
    have hs : AtBoundary s := ⟨hbuf, happ⟩
    by_cases hmod : mod = 0x0A#8
    · subst hmod
      refine (reactAll_overPort_piece (p := [0x10#8]) hs (by decide) (by decide) (cause_of_short_piece (by decide)) _).trans ?_
      rw [reactAll_overPort_six hs]
      simp
    have hsecond : ¬(mod = 0x0A#8 ∧ k0 = 0x20#8 ∧ k5 = 0x0A#8 ∧ 0x0A#8 ∉ [k1, k2, k3, k4]) := fun h => hmod h.1
    rw [if_neg hsecond]
    have hhead : 0x0A#8 ∉ [0x10#8, mod] := List.not_mem_cons_of_ne_of_not_mem (by decide) (by simpa using Ne.symm hmod)
    by_cases h0 : k0 = 0x0A#8
    · subst h0
      refine (reactAll_overPort_piece (p := [0x10#8, mod]) hs hhead (Nat.le_of_ble_eq_true rfl)
        (cause_of_kbd_piece (by simp)) _).trans ?_
      rw [reactAll_overPort_five hs]
      simp
    · have hrest : 0x0A#8 ∈ [k1, k2, k3, k4, k5] :=
        List.mem_of_ne_of_mem (Ne.symm h0) (List.mem_of_ne_of_mem (Ne.symm hmod) hmem)
      have hcause : ∀ p : List Byte, p.length < 5 → (classify ([0x10#8, mod, k0] ++ p ++ [Config.TERM])).cause ≠ none :=
        fun p hp => cause_of_kbd_piece (rest := mod :: k0 :: (p ++ [Config.TERM]))
          (show (p ++ [Config.TERM]).length + 1 + 1 < 8 by rw [List.length_append, List.length_singleton]; omega)
      rw [if_neg fun h => h0 h.1]
      exact reactAll_overPort_split (pre := [0x10#8, mod, k0]) (post := []) hs
        (List.not_mem_append hhead (by simpa using Ne.symm h0)) hrest (Nat.le_of_ble_eq_true rfl) hcause (Nat.le_refl _)

/-- The state after the frame of the second shape is not the state before: the mouse piece makes ABM 1. -/
theorem react_mouseFrame_reset_ne :
    react (.frame [0x20#8, 0x01#8, 0x00#8, 0x00#8, 0x00#8, 0x0A#8]) State.reset ≠ .next State.reset := by
  intro h
  rw [react_frame _ (Nat.le_of_ble_eq_true rfl), classify_mouse] at h
  injection h with hstate
  have habm := congrArg State.getAbm hstate
  rw [chunkEffect, State.getAbm_flush, Invariants.getAbm_reconcileMouse] at habm
  exact absurd habm (by decide)

/-- Refutes O20 (log 22): `KBD 0x0A, 0x20, 1, 0, 0, 0, 0x0A` from the reset state is cut so that its middle piece is `MOUSE 1, 0, 0, 0`. -/
theorem not_splitKeyboardFrameOnlyOneShape : ¬ Obligations.SplitKeyboardFrameOnlyOneShape := by
  intro h
  have hclaim := h 0x0A#8 0x20#8 0x01#8 0x00#8 0x00#8 0x00#8 0x0A#8 State.reset rfl rfl (by decide) (by decide)
  rw [splitFrameOutcomes.2 _ _ _ _ _ _ _ _ rfl rfl (by decide), if_neg (by decide), if_pos (by decide)] at hclaim
  exact react_mouseFrame_reset_ne hclaim

/-! ### TIMEOUT inside a frame -/

/-- Bytes that close no chunk leave no trace once a TIMEOUT follows them (R102). -/
theorem reactAll_overPort_timeout {g : List Byte} {s : State} (hs : AtBoundary s) (hg : Config.TERM ∉ g)
    (hlen : g.length < Config.RX_MAX) (xs : List Input) : reactAll (overPort g ++ .timeout :: xs) s = reactAll xs s := by
  have hstored := reactAll_overPort_stores g s (fun b hb he => hg (he ▸ hb))
    (by rwa [hs.rxbuf, List.length_nil, Nat.zero_add]) hs.applying
  rw [reactAll_append_of_next hstored, reactAll_cons_of_next (react_timeout _)]
  show reactAll xs s.memClear.flush = _
  rw [State.memClear_eq_self hs.rxbuf, flush_eq_self hs.applying]

/-- A frame that a TIMEOUT cuts after `n` bytes has the reaction of the chunk of its other bytes (R207). -/
theorem reactAll_timeout_inside {g : List Byte} {n : Nat} {s : State} (hs : AtBoundary s) (hg : Config.TERM ∉ g)
    (hn : n ≤ g.length) (hlen : g.length < Config.RX_MAX) :
    reactAll (overPort ((g ++ [Config.TERM]).take n) ++ .timeout :: overPort ((g ++ [Config.TERM]).drop n)) s =
      react (.frame (g.drop n ++ [Config.TERM])) s := by
  have htake : Config.TERM ∉ g.take n := fun h => hg (List.mem_of_mem_take h)
  have hdrop : Config.TERM ∉ g.drop n := fun h => hg (List.mem_of_mem_drop h)
  rw [List.take_append_of_le_length hn, List.drop_append_of_le_length hn,
    reactAll_overPort_timeout hs htake (by rw [List.length_take]; omega),
    reactAll_overPort_eq_react_frame hs.rxbuf hdrop (by rw [List.length_drop]; omega) (.inl rfl)]

/-- The rest of a cut frame is dropped when its length is no frame's. -/
theorem reactAll_timeout_inside_of_length {g : List Byte} {n : Nat} {s : State} (hs : AtBoundary s) (hg : Config.TERM ∉ g)
    (hn : n ≤ g.length) (hlen : g.length < Config.RX_MAX) (hk : g.length - n + 1 ≠ 9)
    (hm : g.length - n + 1 ≠ 6) :
    reactAll (overPort ((g ++ [Config.TERM]).take n) ++ .timeout :: overPort ((g ++ [Config.TERM]).drop n)) s = .next s := by
  have hpiece : (g.drop n ++ [Config.TERM]).length = g.length - n + 1 := by
    rw [List.length_append, List.length_drop, List.length_singleton]
  rw [reactAll_timeout_inside hs hg hn hlen]
  exact react_frame_of_cause hs (by omega) (classify_cause_of_length (hpiece ▸ hk) (hpiece ▸ hm))

/-- Settles O21: what is left of the frame is one chunk, of 6 bytes only for the keyboard frame cut after 3. -/
theorem timeoutInsideFrame : Obligations.TimeoutInsideFrame := by
  constructor
  · intro n buttons dx dy wheel s hlow hhigh hbuf happ hfields
    have hterm : 0x0A#8 ∉ [0x20#8, buttons, dx, dy, wheel] := List.not_mem_cons_of_ne_of_not_mem (by decide) hfields
    exact reactAll_timeout_inside_of_length (g := [0x20#8, buttons, dx, dy, wheel]) ⟨hbuf, happ⟩ hterm hhigh
      (Nat.le_of_ble_eq_true rfl) (show 5 - n + 1 ≠ 9 by omega) (show 5 - n + 1 ≠ 6 by omega)
  · intro n mod k0 k1 k2 k3 k4 k5 s hlow hhigh hbuf happ hfields
    have hs : AtBoundary s := ⟨hbuf, happ⟩
    have hterm : 0x0A#8 ∉ [0x10#8, mod, k0, k1, k2, k3, k4, k5] := List.not_mem_cons_of_ne_of_not_mem (by decide) hfields
    by_cases hthree : n = 3
    · subst hthree
      refine (reactAll_timeout_inside (g := [0x10#8, mod, k0, k1, k2, k3, k4, k5]) hs hterm (Nat.le_of_ble_eq_true rfl)
        (Nat.le_of_ble_eq_true rfl)).trans ?_
      show react (.frame [k1, k2, k3, k4, k5, 0x0A#8]) s = _
      by_cases htag : k1 = 0x20#8
      · rw [if_pos ⟨rfl, htag⟩, htag]
      · rw [if_neg fun h => htag h.2]
        refine react_frame_of_cause hs (Nat.le_of_ble_eq_true rfl) (Encoding.classify_cause_of_misfit ?_ fun h => htag h.1)
        exact fun h => absurd h.2 (by simp)
    · rw [if_neg fun h => hthree h.1]
      exact reactAll_timeout_inside_of_length (g := [0x10#8, mod, k0, k1, k2, k3, k4, k5]) hs hterm hhigh
        (Nat.le_of_ble_eq_true rfl) (show 8 - n + 1 ≠ 9 by omega) (show 8 - n + 1 ≠ 6 by omega)

/-! ### The two entry points -/

theorem memClear_flush_flush (s : State) : s.flush.memClear.flush = s.memClear.flush := flush_flush s.memClear

/-- Bytes and chunks agree on all the state but RXBUF and the moment at which the commands go out, when their chunks do (R105). -/
theorem exists_reactAll_framed {xs : List Input} {s u : State} (hrx : RxInv s) (hports : ∀ x ∈ xs, isPortEvent x = true)
    (hsame : s.memClear.flush = u.memClear.flush) :
    ∃ t v, reactAll xs s = .next t ∧ reactAll (framed s.rxbuf xs) u = .next v ∧ t.memClear.flush = v.memClear.flush := by
  induction xs generalizing s u with
  | nil => exact ⟨s, u, rfl, rfl, hsame⟩
  | cons x xs ih =>
    obtain ⟨hx, hxs⟩ := List.forall_mem_cons.mp hports
    cases x with
    | rxbyte b =>
      by_cases hclose : closes b s
      · have hlen : (s.rxbuf ++ [b]).length ≤ Config.RX_MAX := by
          rw [List.length_append]
          exact ((memory_wf_iff s.rxbuf).mp hrx).1
        have heffect : (chunkEffect (classify (s.rxbuf ++ [b])) s.memClear).flush =
            (chunkEffect (classify (s.rxbuf ++ [b])) u.memClear).flush := by
          rw [← chunkEffect_flush, hsame, chunkEffect_flush]
        have hrest := ih (s := (chunkEffect (classify (s.rxbuf ++ [b])) s.memClear).flush) (chunkEffect_wf _ (memClear_wf s)) hxs rfl
        rw [framed, if_pos ((closes_iff b s).mp hclose), reactAll_cons_of_next (react_rxbyte_of_closes hclose),
          reactAll_cons_of_next (react_frame u hlen), ← heffect]
        rwa [(atBoundary_chunkEffect_flush _ s).rxbuf] at hrest
      · rw [framed, if_neg ((closes_iff b s).not.mp hclose), reactAll_cons_of_next (react_rxbyte_of_not_closes hclose)]
        exact ih (s := (s.memPush b).flush) (memPush_wf hrx hclose) hxs ((memClear_flush_flush (s.memPush b)).trans hsame)
    | timeout =>
      rw [framed, reactAll_cons_of_next (react_timeout s), reactAll_cons_of_next (react_noFrame u)]
      exact ih (s := s.memClear.flush) (memClear_wf s) hxs
        ((memClear_flush_flush s.memClear).trans (hsame.trans (memClear_flush_flush u).symm))
    | reset => cases hx
    | frame f => cases hx
    | noFrame => cases hx

/-- Settles O16: both sides start in one state, so they end in states that differ in RXBUF at most. -/
theorem byteLevelAgreesWithChunkLevel : Obligations.ByteLevelAgreesWithChunkLevel := by
  intro xs s hrx hports
  obtain ⟨t, u, ht, hu, hsame⟩ := exists_reactAll_framed hrx hports (rfl : s.memClear.flush = s.memClear.flush)
  have haks : t.memClear.flush.getAks = u.memClear.flush.getAks := congrArg State.getAks hsame
  have habm : t.memClear.flush.getAbm = u.memClear.flush.getAbm := congrArg State.getAbm hsame
  exact ⟨t, u, ht, hu, haks, habm, congrArg State.hidOut hsame⟩

end Sys2Proof.Proofs.ByteStream
end

section
/-! The refinement of 00_scope.md and 20_memory.md: with a live HID capability the machine has the whole reaction to every input. -/

namespace Sys2Proof.Proofs.Liveness

open Sys2Proof.Machine Sys2Proof.Proofs.Invariants Sys2Proof.Proofs.Step

/-! ### Reactions do not see the inbox or the input levels -/

/-- `s` with other inputs waiting and other input levels. -/
def withEnv (s : State) (xs : List Input) (p : Pins) (ps : List Pins) : State := { s with inbox := xs, pins := p, pinTrace := ps }

theorem withEnv_self (s : State) : withEnv s s.inbox s.pins s.pinTrace = s := rfl

theorem chunkEffect_withEnv (c : Classified) (s : State) (xs : List Input) (p : Pins) (ps : List Pins) :
    chunkEffect c (withEnv s xs p ps) = withEnv (chunkEffect c s) xs p ps := by
  rw [chunkEffect_eq, chunkEffect_eq]
  cases c <;> rfl

theorem acceptResult_withEnv {x : Input} {s t : State} (h : AcceptResult s x t) (xs : List Input) (p : Pins) (ps : List Pins) :
    AcceptResult (withEnv s xs p ps) x (withEnv t xs p ps) := by
  cases h with
  | store b hstore => exact .store b hstore
  | close b hclose =>
    rw [← chunkEffect_withEnv]
    exact .close (s := withEnv s xs p ps) b hclose
  | timeout => exact .timeout
  | reset => exact .reset
  | frame f hlen =>
    rw [← chunkEffect_withEnv]
    exact .frame (s := withEnv s xs p ps) f hlen
  | noFrame => exact .noFrame

/-- A reaction is an acceptance and what is to be emitted after it. -/
theorem react_eq_next_iff {x : Input} {s t : State} : react x s = .next t ↔ ∃ u, AcceptResult s x u ∧ u.flush = t := by
  constructor
  · intro h
    rw [react] at h
    split at h
    · rename_i u hu
      cases h
      exact ⟨u, acceptInput_eq_next_iff.mp hu, rfl⟩
    · cases h
    · cases h
  · rintro ⟨u, hu, rfl⟩
    rw [react, acceptInput_of_acceptResult hu]

theorem reactAll_cons_eq_next_iff {x : Input} {xs : List Input} {s t : State} :
    reactAll (x :: xs) s = .next t ↔ ∃ u, AcceptResult s x u ∧ reactAll xs u.flush = .next t := by
  constructor
  · intro h
    rw [reactAll] at h
    split at h
    · rename_i v hv
      obtain ⟨u, hu, rfl⟩ := react_eq_next_iff.mp hv
      exact ⟨u, hu, h⟩
    · cases h
    · cases h
  · rintro ⟨u, hu, h⟩
    rw [ByteStream.reactAll_cons_of_next (react_eq_next_iff.mpr ⟨u, hu, rfl⟩), h]

theorem reactAll_withEnv {ys : List Input} {s t : State} (h : reactAll ys s = .next t) (xs : List Input) (p : Pins)
    (ps : List Pins) : reactAll ys (withEnv s xs p ps) = .next (withEnv t xs p ps) := by
  induction ys generalizing s with
  | nil => cases h; rfl
  | cons y ys ih =>
    obtain ⟨u, hu, h⟩ := reactAll_cons_eq_next_iff.mp h
    exact reactAll_cons_eq_next_iff.mpr ⟨_, acceptResult_withEnv hu xs p ps, ih h⟩

theorem reactAll_inbox {ys : List Input} {s t : State} (h : reactAll ys s = .next t) : t.inbox = s.inbox := by
  induction ys generalizing s with
  | nil => cases h; rfl
  | cons y ys ih =>
    obtain ⟨u, hu, h⟩ := reactAll_cons_eq_next_iff.mp h
    exact (ih h).trans (u.flush_inbox.trans (acceptResult_inbox hu))

/-! ### The input levels of a live environment -/

/-- The levels end in `p`, with `cmd_ready` high there and reset never high (R188). -/
structure LiveTo (p : Pins) (s : State) : Prop where
  last : s.lastPins = p
  ready : p.cmdReady = true
  low : noResetAhead s

theorem LiveTo.congr {p : Pins} {s t : State} (h : LiveTo p s) (hpins : t.pins = s.pins) (htrace : t.pinTrace = s.pinTrace) :
    LiveTo p t := by
  obtain ⟨hlast, hready, hlow⟩ := h
  exact ⟨by rwa [State.lastPins, hpins, htrace], hready, by rwa [noResetAhead, hpins, htrace]⟩

theorem LiveTo.takePins {p : Pins} {s : State} (h : LiveTo p s) : LiveTo p s.takePins := by
  have hlast := h.last
  have htrace := h.low.2
  cases hs : s.pinTrace with
  | nil => rw [takePins_of_nil hs]; exact h
  | cons q ps =>
    rw [hs] at htrace
    obtain ⟨hq, hps⟩ := List.forall_mem_cons.mp htrace
    rw [State.lastPins, hs, List.getLast?_cons, Option.getD_some] at hlast
    rw [takePins_of_cons hs]
    exact ⟨hlast, h.ready, hq, hps⟩

theorem LiveTo.pins_eq {p : Pins} {s : State} (h : LiveTo p s) (htrace : s.pinTrace = []) : s.pins = p := by
  have hlast := h.last
  rwa [State.lastPins, htrace] at hlast

/-! ### What is still to do -/

/-- What the commands to come make of `s`, at rest: no input waits, and the levels are `p` for good. -/
def rested (p : Pins) (s : State) : State := withEnv s.flush [] p []

theorem takePins_eq_withEnv (s : State) : s.takePins = withEnv s s.inbox s.takePins.pins s.takePins.pinTrace := by
  cases hs : s.pinTrace with
  | nil => rw [takePins_of_nil hs]; rfl
  | cons q ps => rw [takePins_of_cons hs]; rfl

theorem rested_takePins (p : Pins) (s : State) : rested p s.takePins = rested p s := by
  rw [takePins_eq_withEnv]
  rfl

theorem rested_applyPart (p : Pins) (s : State) : rested p s.applyPart = rested p s := by rw [rested, flush_applyPart]; rfl

/-- The moves the command port has still to make: two for a command to come, one for the command on it. -/
def portWork (s : State) : Nat := 2 * s.cmdq.length + s.port.toList.length

/-- The inputs that wait, the moves of the port, and the levels ahead: each step does some of this work, in this order of weight. -/
def work (s : State) : Nat × Nat × Nat := (s.inbox.length, portWork s, s.pinTrace.length)

/-- There is less work left in `t` than in `s`. -/
def LessWork (t s : State) : Prop := Prod.Lex (· < ·) (Prod.Lex (· < ·) (· < ·)) (work t) (work s)

theorem lessWork_of_inbox {s t : State} (h : t.inbox.length < s.inbox.length) : LessWork t s := .left _ _ h

theorem lessWork_of_port {s t : State} (hinbox : t.inbox = s.inbox) (h : portWork t < portWork s) : LessWork t s := by
  rw [LessWork, work, work, hinbox]
  exact .right _ (.left _ _ h)

/-- Taking levels off the schedule is work done. -/
theorem lessWork_takePins {s : State} (h : s.pinTrace ≠ []) : LessWork s.takePins s := by
  obtain ⟨q, ps, hs⟩ := List.exists_cons_of_ne_nil h
  rw [takePins_of_cons hs, LessWork, work, work, hs]
  exact .right _ (.right _ (Nat.lt_succ_self _))

/-- `t` is nearer to rest than `s`, and comes to rest in the same state. -/
structure Nearer (p : Pins) (v s t : State) : Prop where
  live : LiveTo p t
  reaction : reactAll t.inbox (rested p t) = .next v
  less : LessWork t s

/-- A step inside the apply part: the port moves, or it waits for levels of which there is still one with `cmd_ready` high. -/
theorem nearer_applyPart {p : Pins} {v s : State} (hlive : LiveTo p s) (hreact : reactAll s.inbox (rested p s) = .next v)
    (happ : s.applying = true) : Nearer p v s s.takePins.applyPart := by
  obtain ⟨-, -, -, hinbox, hpins, htrace⟩ := applyPart_core s.takePins
  have hinbox : s.takePins.applyPart.inbox = s.inbox := hinbox.trans s.takePins_inbox
  refine ⟨hlive.takePins.congr hpins htrace, by rwa [hinbox, rested_applyPart, rested_takePins], ?_⟩
  obtain ⟨c, hport, hready, e⟩ | ⟨c, hport, -, e⟩ | ⟨c, rest, hport, hcmdq, e⟩ :=
    applyPart_cases ((takePins_applying s).trans happ)
  · rw [e]
    refine lessWork_takePins fun hnil => ?_
    rw [takePins_of_nil hnil, hlive.pins_eq hnil, hlive.ready] at hready
    cases hready
  · refine lessWork_of_port hinbox ?_
    rw [s.takePins_port] at hport
    rw [e, portWork, portWork, hport, State.complete_cmdq, State.complete_port, s.takePins_cmdq]
    exact Nat.lt_succ_self _
  · refine lessWork_of_port hinbox ?_
    rw [s.takePins_port] at hport
    rw [s.takePins_cmdq] at hcmdq
    rw [e, portWork, portWork, hport, hcmdq, State.present_cmdq, State.present_port]
    exact Nat.lt_succ_self _

/-- The acceptance of an input: the reaction that was to come to it begins. -/
theorem nearer_accept {p : Pins} {v s : State} {x : Input} {rest : List Input} (hlive : LiveTo p s)
    (hreact : reactAll s.inbox (rested p s) = .next v) (happ : s.applying = false) (hinbox : s.inbox = x :: rest) :
    ∃ t, step s = .next t ∧ Nearer p v s t := by
  rw [hinbox] at hreact
  obtain ⟨u, hu, hreact⟩ := reactAll_cons_eq_next_iff.mp hreact
  have hsource : withEnv (rested p s) rest s.takePins.pins s.takePins.pinTrace = accepting s rest := by
    rw [rested, flush_eq_self happ, accepting, takePins_eq_withEnv]
    rfl
  have haccept := acceptResult_withEnv hu rest s.takePins.pins s.takePins.pinTrace
  rw [hsource] at haccept
  have hrested : rested p (withEnv u rest s.takePins.pins s.takePins.pinTrace) = u.flush := by
    have hself := withEnv_self u.flush
    rw [u.flush_inbox, u.flush_pins, u.flush_pinTrace, acceptResult_inbox hu, acceptResult_pins hu,
      acceptResult_pinTrace hu] at hself
    exact hself
  refine ⟨withEnv u rest s.takePins.pins s.takePins.pinTrace, ?_, hlive.takePins.congr rfl rfl, ?_, lessWork_of_inbox ?_⟩
  · rw [step_of_accept hlive.takePins.low.1 happ hinbox, acceptInput_of_acceptResult haccept]
  · rw [hrested]
    exact hreact
  · rw [hinbox]
    exact Nat.lt_succ_self _

/-- A live machine that is not at rest takes a step nearer to it. -/
theorem at_rest_or_nearer {p : Pins} {v s : State} (hlive : LiveTo p s) (hreact : reactAll s.inbox (rested p s) = .next v) :
    s = v ∨ ∃ t, step s = .next t ∧ Nearer p v s t := by
  have hlow : s.takePins.pins.reset = false := hlive.takePins.low.1
  cases happ : s.applying with
  | true => exact .inr ⟨_, step_of_applying hlow happ, nearer_applyPart hlive hreact happ⟩
  | false =>
    cases hinbox : s.inbox with
    | cons x rest => exact .inr (nearer_accept hlive hreact happ hinbox)
    | nil =>
      by_cases htrace : s.pinTrace = []
      · left
        rw [hinbox, reactAll, rested, flush_eq_self happ, ← hlive.pins_eq htrace, ← htrace, ← hinbox, withEnv_self] at hreact
        cases hreact
        rfl
      · refine .inr ⟨_, step_of_wait hlow happ hinbox, hlive.takePins, ?_, lessWork_takePins htrace⟩
        rwa [s.takePins_inbox, rested_takePins]

/-- A live machine comes to rest in the state that the reactions to all its inputs make. -/
theorem exists_run_eq_next {p : Pins} {v : State} (s : State) (hlive : LiveTo p s)
    (hreact : reactAll s.inbox (rested p s) = .next v) : ∃ n, run n s = .next v := by
  obtain rfl | ⟨t, hstep, hnear⟩ := at_rest_or_nearer hlive hreact
  · exact ⟨0, run_zero s⟩
  · obtain ⟨n, hn⟩ := exists_run_eq_next t hnear.live hnear.reaction
    exact ⟨n + 1, (run_succ n hstep).trans hn⟩
termination_by work s
decreasing_by exact hnear.less

/-- Settles O52: by the work that is left, which every step of a live machine lessens. -/
theorem liveMachineReactsToEveryInput : Obligations.LiveMachineReactsToEveryInput := by
  intro s u hlive hlow hreact
  have hu : withEnv u u.inbox s.lastPins [] = withEnv u [] s.lastPins [] := by rw [reactAll_inbox hreact]
  obtain ⟨n, hn⟩ := exists_run_eq_next s ⟨rfl, hlive, hlow⟩ (reactAll_withEnv hreact [] s.lastPins [])
  exact ⟨n, hn.trans (congrArg Host.Outcome.next hu.symm)⟩

end Sys2Proof.Proofs.Liveness
end
